-- ==== Sys2Proof/Word.lean ====
section
/-! DEFINITION. The block's value types: unsigned bit fields of the widths of 00_scope.md R7, and strings as byte
sequences (R11). No value of the block is signed (R10). -/

namespace Sys2Proof

/-- An 8-bit unsigned value; bit 0 is the least significant (R8). -/
abbrev Byte := BitVec 8

/-- The 6-bit `op_code` field, which addresses the mnemonic ROM (R7, R19). -/
abbrev OpCode := BitVec 6

/-- A 3-bit register selector: `reg` or `r_m` (R7, R14). -/
abbrev Selector := BitVec 3

/-- A 4-bit register key `{w, selector}`, which addresses the register-name ROM (R7, R22). -/
abbrev RegKey := BitVec 4

/-- A string: a finite sequence of bytes, each an ASCII code (R11). -/
abbrev Text := List Byte

/-- The string of the given ASCII characters (R11). -/
def ascii (cs : List Char) : Text := cs.map fun c => BitVec.ofNat 8 c.toNat

end Sys2Proof
end

