-- ==== Sys2Proof/Config.lean ====
section
/-! DEFINITION. What is fixed for the machine: the parameters of 00_scope.md R7 that the step reads. -/

namespace Sys2Proof.Config

/-- `INSTR_BYTES`: every instruction is exactly 2 bytes (R7, R48). -/
def instrBytes : Nat := 2

/-- `MOV_OPCODE` (R7, R53). -/
def movOpcode : OpCode := 0b100010#6

/-- The default of the parameter `HONOR_D` (R7; the spec's decision D3). -/
def honorDDefault : Bool := false

/-- `LINE_SEP`: the single byte 0x0A (R7; the spec's decision D7). -/
def lineSep : Byte := 0x0A#8

/-- `MAX_LEN` of a realisation whose cursor has `cursorBits` bits (R7; D18 leaves the width open, see log 5). -/
def maxLen (cursorBits : Nat) : Nat := 2 ^ cursorBits - 1

end Sys2Proof.Config
end

