-- ==== Sys2Proof/Machine/Rom.lean ====
section
/-! DEFINITION. The contents of the two ROMs (10_state.md R21, R24). -/

namespace Sys2Proof.Machine

/-- The mnemonic ROM's contents: address `0b100010` holds `mov`, every other address is invalid (R21). -/
def mnemonicTable : Vector (Option Text) 64 :=
  (Vector.replicate 64 none).set 34 (some (ascii ['m', 'o', 'v'])) (by decide)

/-- The register-name ROM's contents by key `{w, selector}` (R24; the names are the spec's decision D5, from general
knowledge: log 7). -/
def registerTable : Vector (Option Text) 16 :=
  #v[some (ascii ['a', 'l']), some (ascii ['c', 'l']), some (ascii ['d', 'l']), some (ascii ['b', 'l']),
     some (ascii ['a', 'h']), some (ascii ['c', 'h']), some (ascii ['d', 'h']), some (ascii ['b', 'h']),
     some (ascii ['a', 'x']), some (ascii ['c', 'x']), some (ascii ['d', 'x']), some (ascii ['b', 'x']),
     some (ascii ['s', 'p']), some (ascii ['b', 'p']), some (ascii ['s', 'i']), some (ascii ['d', 'i'])]

end Sys2Proof.Machine
end

