-- ==== Sys2Proof/Syntax.lean ====
section
/-! DEFINITION. The instruction set (one row of spec/opcode_table.json, `MOV`), the Instruction Record a chunk is
split into, and the Resolved Instruction a record is looked up to (R14). -/

namespace Sys2Proof

/-- The Instruction Record: the six fields of one two-byte chunk, each of exactly its width, so that no field can
hold a value out of its range (R49, R50, R70). -/
structure InstrRecord where
  opCode : OpCode
  d      : BitVec 1
  w      : BitVec 1
  mod    : BitVec 2
  reg    : Selector
  rm     : Selector
deriving DecidableEq, Repr

/-- The instructions: one constructor per row of spec/opcode_table.json. -/
inductive Instr where
  /-- `MOV`, register-to-register move (R53, R77): direction `d`, width `w`, addressing mode `mod`, and the
  selectors `reg` and `r_m`. -/
  | mov (d : BitVec 1) (w : BitVec 1) (mod : BitVec 2) (reg : Selector) (rm : Selector)
deriving DecidableEq, Repr

/-- The Resolved Instruction: "a mnemonic string and two operand name strings, ready for formatting" (R14, R17). -/
structure Resolved where
  mnemonic : Text
  op1      : Text
  op2      : Text
deriving DecidableEq, Repr

/-- Why the decoder reads no instruction from the bytes given to it. -/
inductive Reject where
  /-- The chunk's `op_code` names no instruction (R54). -/
  | unknownOpcode (opCode : OpCode)
  /-- One byte is left where a chunk needs two (R43, R48). -/
  | shortChunk
  /-- No byte is left. -/
  | endOfStream
deriving DecidableEq, Repr

end Sys2Proof
end

