-- ==== Sys2Proof/Machine/State.lean ====
section
/-! DEFINITION. The machine's state as plain data (10_state.md), its state after reset, and the reasons a step can
stop. -/

namespace Sys2Proof.Machine

/-- The sequencer register `STATE`, 2 bits, all four values named (R26). -/
inductive SeqState where
  | idle
  | running
  | done
  | fault
deriving DecidableEq, Repr

/-- The register `FAULT_CAUSE`, 2 bits, all four values named (R30, R91). -/
inductive FaultCause where
  | none
  | unknownOpcode
  | unknownRegister
  | malformedLength
deriving DecidableEq, Repr

/-- The input signals of R34 as the environment drives them at one step. -/
structure Pins where
  reset : Bool
  start : Bool
  inLen : Nat
deriving DecidableEq, Repr

/-- The input byte space `IN` (R35): pairs of an offset and its byte, offsets strictly rising; an offset that is not
listed holds no byte (log 9). -/
abbrev Memory := List Host.Cell

/-- The state of the block (R15), the sampled length, and the environment's side of the interface. -/
structure State where
  /-- The mnemonic ROM: 64 addresses, `none` where the valid bit is 0 (R19). -/
  mnRom : Vector (Option Text) 64
  /-- The register-name ROM: 16 keys; `none` is an absent entry of a partial ROM (R22, R75). -/
  regRom : Vector (Option Text) 16
  /-- `STATE` (R26). -/
  seq : SeqState
  /-- `CURSOR`, the offset of the next chunk (R27). -/
  cursor : Nat
  /-- `TEXT` (R28). -/
  text : Text
  /-- `LINES` (R29). -/
  lines : Nat
  /-- `FAULT_CAUSE` (R30). -/
  faultCause : FaultCause
  /-- `FAULT_OFFSET` (R31). -/
  faultOffset : Nat
  /-- `FAULT_OPCODE` (R32). -/
  faultOpcode : OpCode
  /-- `L`, the length sampled from `in_len` at start (R82; log 4). -/
  len : Nat
  /-- The parameter `HONOR_D` (R7, R76; log 8). -/
  honorD : Bool
  /-- The input byte space `IN` (R35; not state of the block, R16). -/
  input : Memory
  /-- The input signals at the coming steps, the next step's first; nothing is asserted after the last (log 1). -/
  pins : List Pins
deriving DecidableEq, Repr

/-- Why the model stops. The block's own faults (R91) are no stops: they are next states (R95). -/
inductive Fault where
  /-- Raised by `State.memRead` at an offset not below `L`, where the input space has no byte (R35). Safe: no state that
  meets `Positioned` raises it. -/
  | readPastInput (offset : Nat)
  /-- Raised by `State.memRead` at an offset below `L` whose byte the environment has not supplied, against R104
  item 2. Safe: a claim about such a run cannot be proved. -/
  | byteNotSupplied (offset : Nat)
deriving DecidableEq, Repr

/-- What the model gives no meaning to. -/
inductive Refusal where
  /-- Raised by an arm of `exec` whose instruction has no meaning yet; no arm is such. Safe. -/
  | notModelled (mnemonic : String)
  /-- Raised by `bfxUnit`, the exposed bit-field extractor, outside its contract (R60). Safe: no step calls it so. -/
  | bfxOutOfContract
deriving DecidableEq, Repr

/-- The state right after reset (R33): every sequencer register at its reset value and both ROMs as they are built. The
sampled length is 0 (log 4), and the environment has presented nothing yet (log 12). -/
def State.reset : State where
  mnRom       := mnemonicTable
  regRom      := registerTable
  seq         := .idle
  cursor      := 0
  text        := []
  lines       := 0
  faultCause  := .none
  faultOffset := 0
  faultOpcode := 0#6
  len         := 0
  honorD      := Config.honorDDefault
  input       := []
  pins        := []

end Sys2Proof.Machine
end

