-- ==== Sys2Proof/Machine/Format.lean ====
section
/-! DEFINITION. The line formatter (42_mov_resolver.md R78) and the joining of lines (43_stream_sequencer.md R86). -/

namespace Sys2Proof.Machine

/-- An ASCII capital becomes its small letter; every other byte stays (R11). -/
def lowerByte (b : Byte) : Byte := if 0x41#8 ≤ b ∧ b ≤ 0x5A#8 then b + 0x20#8 else b

/-- `lower(t)` (R11). -/
def lower (t : Text) : Text := t.map lowerByte

/-- `Format(mnemonic, op1, op2)`: the line `"<mnemonic> <op1>, <op2>"`, all of it lowered (R78). -/
def format (r : Resolved) : Text :=
  lower (r.mnemonic ++ ascii [' '] ++ r.op1 ++ ascii [',', ' '] ++ r.op2)

/-- Lines joined by `LINE_SEP`: one between consecutive lines, none before the first or after the last (R86). -/
def joinLines : List Text → Text
  | [] => []
  | [line] => line
  | line :: next :: rest => line ++ Config.lineSep :: joinLines (next :: rest)

end Sys2Proof.Machine
end

