-- ==== Sys2Proof/Machine/Operands.lean ====
section
/-! DEFINITION. Operands of the one format: register keys, the two ROMs' read ports and the operand order
(42_mov_resolver.md R71 to R76). -/

namespace Sys2Proof.Machine

/-- A register key: `{w, selector}`, the selector in the low 3 bits and the width flag as bit 3 (R51, R73). -/
def regKey (w : BitVec 1) (selector : Selector) : RegKey := w ++ selector

/-- The mnemonic ROM's read port: `none` where the valid bit is 0 (R19, R71, R72). -/
def mnemonicAt (rom : Vector (Option Text) 64) (op : OpCode) : Option Text := rom.get op.toFin

/-- A register-name ROM's read port: `none` where a partial ROM has no entry (R74, R75). -/
def registerAt (rom : Vector (Option Text) 16) (key : RegKey) : Option Text := rom.get key.toFin

/-- The operands in printed order: `r_m`'s name first, except that `HONOR_D` with `d = 1` swaps them (R76). -/
def operandOrder (honorD : Bool) (d : BitVec 1) (nameRm nameReg : Text) : Text × Text :=
  if honorD = true ∧ d = 1#1 then (nameReg, nameRm) else (nameRm, nameReg)

end Sys2Proof.Machine
end

