-- ==== Sys2Proof/WellFormed.lean ====
section
/-! DEFINITION. The checks on the decoder's inputs. The fields of a record and of an instruction carry their widths
in their types (R50, R70), so an `Instr` has nothing left to check; what can be ill-formed is the opcode of a record,
the length of a stream and the offsets of a general bit-field extraction. -/

namespace Sys2Proof

/-- A record names an instruction exactly when its `op_code` is `MOV`'s; no other field takes part (R54, R55). -/
def InstrRecord.wf (r : InstrRecord) : Bool := r.opCode == Config.movOpcode

/-- Every value of every field of an instruction is well formed (R50: validity "never depends on `d`, `w`, `mod`,
`reg` or `r_m`"). -/
def Instr.wf : Instr → Bool
  | .mov _ _ _ _ _ => true

/-- A stream's length is well formed when it is a multiple of the instruction length (R43, R83, R94). -/
def lengthWf (len : Nat) : Bool := len % Config.instrBytes == 0

/-- The contract of the bit-field extractor: a byte `b` and offsets with `e < s ≤ 8` (R59, R60). -/
def bfxInContract (b s e : Nat) : Bool := decide (b < 256) && decide (e < s) && decide (s ≤ 8)

end Sys2Proof
end

