-- ==== Sys2Proof/Decode.lean ====
section
/-! DEFINITION. From bytes to instructions and back: the bit-field extractor, the field extractor, the decoder (total,
rejecting by name), and the encoder written from the same table (30_encoding.md R49). -/

namespace Sys2Proof

/-- The bit-field extractor `BFX(b, s, e)` as the general unit: the bits of `b` from the inclusive lower bound `e` up to
the exclusive upper bound `s`, right-aligned; no value outside its contract (R59, R60). -/
def bfx (b s e : Nat) : Option Nat :=
  if bfxInContract b s e then some ((b >>> e) &&& (2 ^ (s - e) - 1)) else none

/-- The field extractor: six fixed instances of the bit-field extractor, each pure wiring of the bits of one byte to a
field (R63, R64 to R70). -/
def fieldExtract (byte0 byte1 : Byte) : InstrRecord where
  opCode := byte0.extractLsb' 2 6
  d      := byte0.extractLsb' 1 1
  w      := byte0.extractLsb' 0 1
  mod    := byte1.extractLsb' 6 2
  reg    := byte1.extractLsb' 3 3
  rm     := byte1.extractLsb' 0 3

/-- The instruction a record stands for; the selection reads `op_code` alone (R53, R54, R55). -/
def decodeRecord (r : InstrRecord) : Except Reject Instr :=
  if r.wf then .ok (.mov r.d r.w r.mod r.reg r.rm) else .error (.unknownOpcode r.opCode)

/-- The instruction of one chunk. -/
def decodeChunk (byte0 byte1 : Byte) : Except Reject Instr := decodeRecord (fieldExtract byte0 byte1)

/-- The first instruction of a byte list and the bytes after it; the length is 2 whatever the bytes are (R48). -/
def decodeBytes : List Byte → Except Reject (Instr × List Byte)
  | [] => .error .endOfStream
  | [_] => .error .shortChunk
  | byte0 :: byte1 :: rest =>
    match decodeChunk byte0 byte1 with
    | .ok i => .ok (i, rest)
    | .error e => .error e

/-- The instructions of a whole stream, chunk after chunk (R38); the first chunk that names none rejects it (R92). -/
def decodeStream : List Byte → Except Reject (List Instr)
  | [] => .ok []
  | [_] => .error .shortChunk
  | byte0 :: byte1 :: rest =>
    match decodeChunk byte0 byte1 with
    | .error e => .error e
    | .ok i =>
      match decodeStream rest with
      | .error e => .error e
      | .ok is => .ok (i :: is)

/-- The record an instruction is made of (R53). -/
def Instr.record : Instr → InstrRecord
  | .mov d w mod reg rm => { opCode := Config.movOpcode, d, w, mod, reg, rm }

/-- The two bytes of a record: `byte0 = {op_code, d, w}`, `byte1 = {mod, reg, r_m}` (R70). -/
def encodeRecord (r : InstrRecord) : Byte × Byte := (r.opCode ++ r.d ++ r.w, r.mod ++ r.reg ++ r.rm)

/-- The two bytes of an instruction, the first at the lower offset (R38, R58). -/
def encode (i : Instr) : Byte × Byte := encodeRecord i.record

/-- The instruction as one 16-bit word `IW = {byte0, byte1}` (R39). -/
def encodeWord (i : Instr) : BitVec 16 := (encode i).1 ++ (encode i).2

/-- The stream of a list of instructions. -/
def encodeStream : List Instr → List Byte
  | [] => []
  | i :: is => (encode i).1 :: (encode i).2 :: encodeStream is

/-- The chunk whose bits are `w` in the numbering of spec/opcode_table.json: `w` is `IW`, byte 0 in bits 15..8 (R39);
the bits from `nbits` on are zero (log 14). -/
def chunkOfTableWord (nbits w : Nat) : Byte × Byte :=
  let iw := w % 2 ^ min nbits 16
  (BitVec.ofNat 8 (iw / 256), BitVec.ofNat 8 iw)

/-- The instruction the decoder reads from a word numbered as spec/opcode_table.json numbers it. -/
def decodeTableWord (nbits w : Nat) : Option Instr :=
  match decodeBytes [(chunkOfTableWord nbits w).1, (chunkOfTableWord nbits w).2] with
  | .ok (i, _) => some i
  | .error _ => none

end Sys2Proof
end

