-- ==== Sys2Proof/Machine/Ops.lean ====
section
/-! DEFINITION. The named operations: the input space, the exposed bit-field extractor, the sequencer registers, fault
entry, start and reset. -/

namespace Sys2Proof.Machine

/-! ### The input byte space (20_memory.md) -/

/-- The byte listed at an offset. -/
def Memory.read : Memory → Nat → Option Byte
  | [], _ => none
  | (k, b) :: rest, a => if a = k then some b else Memory.read rest a

/-- The environment places a byte (R104 item 2); the block itself never writes the space (R36). -/
def Memory.write : Memory → Nat → Byte → Memory
  | [], a, v => [(a, v)]
  | (k, b) :: rest, a, v =>
    if a < k then (a, v) :: (k, b) :: rest
    else if a = k then (a, v) :: rest
    else (k, b) :: Memory.write rest a v

/-- The canonical form: offsets strictly rising. An offset that is not listed holds no byte, so no listed entry can be
equal to what an unlisted one reads as. -/
def Memory.wf : Memory → Bool
  | [] => true
  | [_] => true
  | (a, _) :: (b, v) :: rest => decide (a < b) && Memory.wf ((b, v) :: rest)

/-- The space that holds the given bytes from an offset on. -/
def Memory.ofBytes (base : Nat) : List Byte → Memory
  | [] => []
  | b :: rest => (base, b) :: Memory.ofBytes (base + 1) rest

/-- `MemRead(off, 1)`: the byte at an offset below `L` (R12, R35). -/
def State.memRead (s : State) (off : Nat) : Except Fault Byte :=
  if off < s.len then
    match s.input.read off with
    | some b => .ok b
    | none => .error (.byteNotSupplied off)
  else .error (.readPastInput off)

/-! ### The bit-field extractor as an exposed unit (40_bitfield_extractor.md) -/

/-- `BFX(b, s, e)` with the outcomes of R13: its value inside the contract (R59), a refusal outside it (R60). -/
def bfxUnit (b s e : Nat) : Host.Outcome Nat Fault Refusal :=
  match bfx b s e with
  | some v => .next v
  | none => .refused .bfxOutOfContract

/-! ### Fault entry (60_exceptions.md) -/

/-- `raise Fault(cause, offset, opcode)`: `STATE` and the fault record are written and nothing else changes (R95). There
is no return from it (R98); only `State.applyReset` leaves the state it enters. -/
def State.raiseFault (s : State) (cause : FaultCause) (offset : Nat) (opcode : OpCode) : State :=
  { s with seq := .fault, faultCause := cause, faultOffset := offset, faultOpcode := opcode }

/-! ### The sequencer registers (43_stream_sequencer.md, 70_reset_and_hazards.md) -/

/-- `TextAppend(t)` (R12, R28). -/
def State.textAppend (s : State) (t : Text) : State := { s with text := s.text ++ t }

/-- The separator is appended only after an earlier line (R84, R86). -/
def State.separate (s : State) : State :=
  if 0 < s.lines then s.textAppend [Config.lineSep] else s

/-- `LINES` and `CURSOR` move past the chunk, and the run ends when the cursor reaches `L` (R84). -/
def State.advance (s : State) : State :=
  { s with
    lines := s.lines + 1
    cursor := s.cursor + Config.instrBytes
    seq := if s.cursor + Config.instrBytes = s.len then .done else s.seq }

/-- What a decode step does with a rendered line (R84, the branch `Ok line`). -/
def State.appendLine (s : State) (line : Text) : State := (s.separate.textAppend line).advance

/-- Reset: every sequencer register at its reset value; the ROMs, the parameter and the environment's side stay
(R102, R25). The sampled length goes to 0 (log 4). -/
def State.applyReset (s : State) : State :=
  { s with
    seq := .idle
    cursor := 0
    text := []
    lines := 0
    faultCause := .none
    faultOffset := 0
    faultOpcode := 0#6
    len := 0 }

/-- Start: the length is sampled and checked before any chunk is read (R82, R83). -/
def State.beginRun (s : State) (inLen : Nat) : State :=
  let t := { s with len := inLen }
  if inLen % Config.instrBytes = 1 then t.raiseFault .malformedLength (inLen - 1) 0#6
  else if inLen = 0 then { t with seq := .done }
  else { t with cursor := 0, lines := 0, text := [], seq := .running }

/-! ### The environment's side -/

/-- The input signals at the coming step; nothing is asserted when the environment has scheduled nothing (log 1). -/
def State.pinsNow (s : State) : Pins := s.pins.headD { reset := false, start := false, inLen := 0 }

/-- The state once the coming step's input signals have been sampled. -/
def State.afterPins (s : State) : State := { s with pins := s.pins.tail }

/-- Boot (R104): the environment supplies the bytes as `IN`, presents their number on `in_len` and asserts `start`. -/
def State.launch (s : State) (bytes : List Byte) : State :=
  { s with
    input := Memory.ofBytes 0 bytes
    pins := [{ reset := false, start := true, inLen := bytes.length }] }

/-- The environment places one chunk where the next decode step fetches, in a run that is long enough to hold it, with
`reset` not asserted at that step (log 12). -/
def State.loadChunk (s : State) (byte0 byte1 : Byte) : State :=
  { s with
    input := (s.input.write s.cursor byte0).write (s.cursor + 1) byte1
    len := max s.len (s.cursor + Config.instrBytes)
    seq := .running
    pins := match s.pins with
      | [] => []
      | p :: rest => { p with reset := false } :: rest }

end Sys2Proof.Machine
end

