-- ==== Sys2Proof/Machine/Resolver.lean ====
section
/-! DEFINITION. The combinational datapath of one chunk (42_mov_resolver.md R80) and the effect of its result on the
sequencer registers (43_stream_sequencer.md R84). -/

namespace Sys2Proof.Machine

/-- A record looked up in the two ROMs (R71 to R76). The opcode is checked before the registers, and `key1` (from `r_m`)
before `key2` (R75, R97). -/
def resolve (mnRom : Vector (Option Text) 64) (regRom : Vector (Option Text) 16) (honorD : Bool) (r : InstrRecord) :
    Except FaultCause Resolved :=
  match mnemonicAt mnRom r.opCode with
  | none => .error .unknownOpcode
  | some mnemonic =>
    match registerAt regRom (regKey r.w r.rm) with
    | none => .error .unknownRegister
    | some nameRm =>
      match registerAt regRom (regKey r.w r.reg) with
      | none => .error .unknownRegister
      | some nameReg =>
        let ops := operandOrder honorD r.d nameRm nameReg
        .ok { mnemonic, op1 := ops.1, op2 := ops.2 }

/-- `Decode1` on a record: a line, or the cause of a fault (R80). It reads the ROMs and `HONOR_D`, no sequencer
register. -/
def decode1 (mnRom : Vector (Option Text) 64) (regRom : Vector (Option Text) 16) (honorD : Bool) (r : InstrRecord) :
    Except FaultCause Text :=
  match resolve mnRom regRom honorD r with
  | .error cause => .error cause
  | .ok resolved => .ok (format resolved)

/-- The decode step's effect for the chunk at `CURSOR` whose record is `r`: the line is appended, or the fault is
entered with the chunk's offset and opcode (R84). -/
def State.decodeEffect (s : State) (r : InstrRecord) : State :=
  match decode1 s.mnRom s.regRom s.honorD r with
  | .error cause => s.raiseFault cause s.cursor r.opCode
  | .ok line => s.appendLine line

end Sys2Proof.Machine
end

