-- ==== Sys2Proof/Machine/Move.lean ====
section
/-! DEFINITION. The meaning of the one instruction, `MOV` (42_mov_resolver.md R77). -/

namespace Sys2Proof.Machine

/-- `MOV`: the chunk is rendered as one line of text and appended, and the cursor moves past it (R77, R84). The move
itself is not executed: no register named in the line exists in the block (R2, R20). -/
def execMov (d : BitVec 1) (w : BitVec 1) (mod : BitVec 2) (reg : Selector) (rm : Selector) (s : State) :
    Host.Outcome State Fault Refusal :=
  .next (s.decodeEffect { opCode := Config.movOpcode, d, w, mod, reg, rm })

/-- A chunk that decodes to no instruction: the opcode decoder finds no entry and `UNKNOWN_OPCODE` is entered (R54, R71,
R92). The lookup is made in the state's own ROM, as R80 says (log 6). -/
def execUndecoded (r : InstrRecord) (s : State) : Host.Outcome State Fault Refusal :=
  .next (s.decodeEffect r)

end Sys2Proof.Machine
end

