-- ==== Sys2Proof/Machine/Flags.lean ====
section
/-! DEFINITION. The block has no flags (42_mov_resolver.md R77); its only status is the sequencer state and the fault
record, seen as the output signals of 10_state.md R34. -/

namespace Sys2Proof.Machine

/-- The 2-bit code of `STATE` (R26). -/
def SeqState.code : SeqState → BitVec 2
  | .idle    => 0
  | .running => 1
  | .done    => 2
  | .fault   => 3

/-- The 2-bit code of `FAULT_CAUSE` (R30, R91). -/
def FaultCause.code : FaultCause → BitVec 2
  | .none            => 0
  | .unknownOpcode   => 1
  | .unknownRegister => 2
  | .malformedLength => 3

/-- `text_valid` (R34). -/
def State.textValid (s : State) : Bool := s.seq == .done

/-- `busy` (R34). -/
def State.busy (s : State) : Bool := s.seq == .running

/-- `fault` (R34). -/
def State.faulted (s : State) : Bool := s.seq == .fault

/-- The text delivered to the consumer: `TEXT` when, and only when, `STATE = DONE` (R28, R107). -/
def State.result (s : State) : Option Text := if s.textValid then some s.text else none

/-- The output signals (R34). -/
structure Outputs where
  text        : Text
  textValid   : Bool
  busy        : Bool
  fault       : Bool
  faultCause  : BitVec 2
  faultOffset : Nat
  faultOpcode : OpCode
deriving DecidableEq, Repr

/-- What the block shows at a state (R34). -/
def State.outputs (s : State) : Outputs where
  text        := s.text
  textValid   := s.textValid
  busy        := s.busy
  fault       := s.faulted
  faultCause  := s.faultCause.code
  faultOffset := s.faultOffset
  faultOpcode := s.faultOpcode

/-- The offsets the coming step presents on `in_addr`, in order: a chunk's two in `RUNNING`, unless `reset` is asserted at
that step; none in any other state (R34, R41, R45). -/
def State.inAddrs (s : State) : List Nat :=
  if s.busy && !s.pinsNow.reset then [s.cursor, s.cursor + 1] else []

end Sys2Proof.Machine
end

