-- ==== Sys2Proof/Machine/Sequencer.lean ====
section
/-! DEFINITION. The stream sequencer (43_stream_sequencer.md): what each state of `STATE` does in a step, and the run of
a whole stream as one function (R88). -/

namespace Sys2Proof.Machine

/-- A fetched chunk is decoded and its instruction's meaning taken; a chunk that decodes to none enters the fault of
R92. -/
def runChunk (byte0 byte1 : Byte) (s : State) : Host.Outcome State Fault Refusal :=
  match decodeChunk byte0 byte1 with
  | .ok i => exec i s
  | .error _ => execUndecoded (fieldExtract byte0 byte1) s

/-- The decode step: the bytes at `CURSOR` and `CURSOR + 1` are read, in that order, and the chunk is run (R38, R84). -/
def decodeStep (s : State) : Host.Outcome State Fault Refusal :=
  match s.memRead s.cursor with
  | .error f => .fault f
  | .ok byte0 =>
    match s.memRead (s.cursor + 1) with
    | .error f => .fault f
    | .ok byte1 => runChunk byte0 byte1 s

/-- One step of the block: `reset` acts in any state (R102); `start` is taken only in `IDLE` (R82); `RUNNING` has the
decode step (R84); where no step is enabled the block stays as it is (R85, R87, R103; log 3). -/
def sequencerStep (s : State) : Host.Outcome State Fault Refusal :=
  let now := s.pinsNow
  let t := s.afterPins
  if now.reset then .next t.applyReset
  else
    match t.seq with
    | .idle => if now.start then .next (t.beginRun now.inLen) else .next t
    | .running => decodeStep t
    | .done => .next t
    | .fault => .next t

/-! ### The run as one function (R88) -/

/-- The two outcomes of a run (R88). -/
inductive RunResult where
  | ok (text : Text)
  | fault (cause : FaultCause) (offset : Nat) (opcode : OpCode)
deriving DecidableEq, Repr

/-- The chunks of a stream: consecutive pairs of bytes, in order (R38). A lone last byte makes none. -/
def chunksOf : List Byte → List (Byte × Byte)
  | byte0 :: byte1 :: rest => (byte0, byte1) :: chunksOf rest
  | _ => []

/-- The loop of `Run` from chunk `n` on, with the lines rendered so far (R88). -/
def runChunks (mnRom : Vector (Option Text) 64) (regRom : Vector (Option Text) 16) (honorD : Bool) :
    Nat → List Text → List (Byte × Byte) → RunResult
  | _, lines, [] => .ok (joinLines lines)
  | n, lines, (byte0, byte1) :: rest =>
    match decode1 mnRom regRom honorD (fieldExtract byte0 byte1) with
    | .error cause => .fault cause (2 * n) (fieldExtract byte0 byte1).opCode
    | .ok line => runChunks mnRom regRom honorD (n + 1) (lines ++ [line]) rest

/-- `Run(IN, L)` (R88), for the ROMs and `HONOR_D` given. -/
def runStream (mnRom : Vector (Option Text) 64) (regRom : Vector (Option Text) 16) (honorD : Bool) (bytes : List Byte) :
    RunResult :=
  if bytes.length % 2 = 1 then .fault .malformedLength (bytes.length - 1) 0#6
  else runChunks mnRom regRom honorD 0 [] (chunksOf bytes)

/-- How the outcome of a run is observed: `DONE` with its text, `FAULT` with its record, nothing yet otherwise (R88). -/
def State.observe (s : State) : Option RunResult :=
  match s.seq with
  | .done => some (.ok s.text)
  | .fault => some (.fault s.faultCause s.faultOffset s.faultOpcode)
  | .idle => none
  | .running => none

end Sys2Proof.Machine
end

