-- ==== Sys2Proof/Machine/Step.lean ====
section
/-! DEFINITION. The step of the machine, and the placing of one instruction where it fetches. -/

namespace Sys2Proof.Machine

/-- One abstract step (R84, R108). -/
def step (s : State) : Host.Outcome State Fault Refusal := sequencerStep s

/-- The state with one instruction, given as a word of spec/opcode_table.json, placed where the next step fetches and
runs it (log 12). -/
def State.withFetchWord (s : State) (nbits w : Nat) : State :=
  s.loadChunk (chunkOfTableWord nbits w).1 (chunkOfTableWord nbits w).2

end Sys2Proof.Machine
end

