-- ==== Sys2Proof/Safety.lean ====
section
/-! DEFINITION. What counts as a sound state and a sound environment, in the terms the statements use. -/

namespace Sys2Proof.Machine

/-- `k` steps, stopping at the first stop. -/
def steps : Nat → State → Host.Outcome State Fault Refusal
  | 0, s => .next s
  | k + 1, s =>
    match step s with
    | .next t => steps k t
    | .fault f => .fault f
    | .refused r => .refused r

/-- Both ROMs hold the contents of R21 and R24. -/
abbrev State.RomsIntact (s : State) : Prop := s.mnRom = mnemonicTable ∧ s.regRom = registerTable

/-- Where the cursor and the line count stand in each state of `STATE`: reset values in `IDLE` (R26, R33); on an even
offset with a whole chunk ahead in `RUNNING` (R27, R29, R84); at the end in `DONE` (R84); on the faulting chunk, or at
0 before any chunk, in `FAULT` (R95, R96). -/
abbrev State.Positioned (s : State) : Prop :=
  match s.seq with
  | .idle => s.cursor = 0 ∧ s.lines = 0 ∧ s.text = []
  | .running => s.cursor = 2 * s.lines ∧ s.cursor < s.len ∧ s.len % 2 = 0
  | .done => s.cursor = 2 * s.lines ∧ s.cursor = s.len
  | .fault => s.cursor = 2 * s.lines ∧ s.cursor < s.len

/-- The fault record: empty unless `STATE = FAULT` (R30, R31, R32); otherwise what R91 gives for its cause. -/
abbrev State.Recorded (s : State) : Prop :=
  match s.seq with
  | .fault =>
    match s.faultCause with
    | .none => False
    | .unknownOpcode =>
      s.faultOffset = s.cursor ∧ s.len % 2 = 0 ∧ mnemonicAt s.mnRom s.faultOpcode = none ∧
      (s.input.read s.cursor).map (fun byte0 => byte0.extractLsb' 2 6) = some s.faultOpcode
    | .unknownRegister =>
      s.faultOffset = s.cursor ∧ s.len % 2 = 0 ∧ mnemonicAt s.mnRom s.faultOpcode ≠ none ∧
      (s.input.read s.cursor).map (fun byte0 => byte0.extractLsb' 2 6) = some s.faultOpcode
    | .malformedLength =>
      s.faultOffset = s.len - 1 ∧ s.faultOpcode = 0#6 ∧ s.len % 2 = 1 ∧ s.lines = 0 ∧ s.text = []
  | _ => s.faultCause = .none ∧ s.faultOffset = 0 ∧ s.faultOpcode = 0#6

/-- The line of chunk `n` of the input space, where its two bytes are there and it renders (R38, R80). -/
def State.lineOf (s : State) (n : Nat) : Option Text :=
  match s.input.read (2 * n), s.input.read (2 * n + 1) with
  | some byte0, some byte1 => (decode1 s.mnRom s.regRom s.honorD (fieldExtract byte0 byte1)).toOption
  | _, _ => none

/-- The lines of chunks `0 .. n-1`, in chunk order, where all of them render. -/
def State.linesUpTo (s : State) : Nat → Option (List Text)
  | 0 => some []
  | n + 1 =>
    match s.linesUpTo n, s.lineOf n with
    | some lines, some line => some (lines ++ [line])
    | _, _ => none

/-- `TEXT` is the lines of the chunks decoded so far, joined (R28, R86). -/
abbrev State.Rendered (s : State) : Prop := (s.linesUpTo s.lines).map joinLines = some s.text

/-- The invariant of the machine. -/
structure State.Inv (s : State) : Prop where
  positioned : s.Positioned
  recorded   : s.Recorded
  rendered   : s.Rendered

/-- The input space can be read at every offset below `n` (R104 item 2). -/
abbrev State.Readable (s : State) (n : Nat) : Prop := ∀ a, a < n → (s.input.read a).isSome = true

/-- The environment has met R104: the bytes of the run going on are there, and those of every start it will assert. -/
abbrev State.BootMet (s : State) : Prop :=
  (s.seq = .running → s.Readable s.len) ∧ ∀ p ∈ s.pins, p.start = true → s.Readable p.inLen

/-- The environment asserts `reset` at none of the steps it has scheduled. -/
abbrev State.NoResetAhead (s : State) : Prop := ∀ p ∈ s.pins, p.reset = false

/-- Every offset and length fits a realisation whose cursor has `cursorBits` bits, and every line count one bit less
(R7, R27, R29, R31, R34). -/
abbrev State.FitsWidth (s : State) (cursorBits : Nat) : Prop :=
  s.cursor ≤ Config.maxLen cursorBits ∧ s.len ≤ Config.maxLen cursorBits ∧
  s.faultOffset ≤ Config.maxLen cursorBits ∧ s.lines < 2 ^ (cursorBits - 1) ∧
  ∀ p ∈ s.pins, p.inLen ≤ Config.maxLen cursorBits

/-- A byte the block may put into `TEXT`: a small letter, a space, a comma or the separator (R37, R57, R86). -/
abbrev isOutputByte (b : Byte) : Bool :=
  (decide (0x61#8 ≤ b) && decide (b ≤ 0x7A#8)) || b == 0x20#8 || b == 0x2C#8 || b == 0x0A#8

/-- What R23 asks of any contents of the register-name ROM that can be checked on strings: total, non-empty, no two
keys with one name, and CX and BX among the 16-bit names (keys 8 to 15). -/
def registerRomWf (rom : Vector (Option Text) 16) : Bool :=
  rom.toList.all (fun entry => match entry with
    | some name => !name.isEmpty
    | none => false) &&
  decide rom.toList.Nodup &&
  (rom.toList.drop 8).any (fun entry => entry.map lower == some (ascii ['c', 'x'])) &&
  (rom.toList.drop 8).any (fun entry => entry.map lower == some (ascii ['b', 'x']))

end Sys2Proof.Machine
end

