-- ==== Sys2Proof/Certificates/Slice0/Obligations.lean ====
section
/-! DEFINITION. The statements about the machine, each from the numbered rules of spec/. A statement about a state or a
stream holds for every content of the two ROMs and both values of `HONOR_D` unless it says otherwise. -/

open Sys2Proof Sys2Proof.Machine

/-! ### The bit-field extractor (40_bitfield_extractor.md) -/

/-- R59: inside the contract the extractor answers the masked shift, whose bits are exactly the bits of `b` from `e` up to
`s`; outside it the call is refused. -/
def Obligations.ExtractorIsolatesItsBits : Prop :=
  ∀ b s e : Nat,
    (b < 256 → e < s → s ≤ 8 →
      ∃ v, bfxUnit b s e = .next v ∧ v = (b >>> e) &&& (2 ^ (s - e) - 1) ∧
        ∀ i, v.testBit i = (decide (i < s - e) && b.testBit (e + i))) ∧
    (¬ (b < 256 ∧ e < s ∧ s ≤ 8) → bfxUnit b s e = .refused .bfxOutOfContract)

/-- R61: the extractor's value is in `[0, 2^(s−e) − 1]`. -/
def Obligations.ExtractorRange : Prop :=
  ∀ b s e : Nat, b < 256 → e < s → s ≤ 8 → ∃ v, bfxUnit b s e = .next v ∧ v ≤ 2 ^ (s - e) - 1

/-- R62: the weighted sum of the eight one-bit extractions is the byte. -/
def Obligations.ExtractorReconstructsTheByte : Prop :=
  ∀ b : Nat, b < 256 → ∃ f : Nat → Nat,
    (∀ i, i < 8 → bfxUnit b (i + 1) i = .next (f i)) ∧ ((List.range 8).map fun i => 2 ^ i * f i).sum = b

/-- R63 to R69: each field of the record is the extractor's value at its constant pair. -/
def Obligations.FieldsAreTheSixExtractions : Prop :=
  ∀ byte0 byte1 : Byte,
    bfxUnit byte0.toNat 8 2 = .next (fieldExtract byte0 byte1).opCode.toNat ∧
    bfxUnit byte0.toNat 2 1 = .next (fieldExtract byte0 byte1).d.toNat ∧
    bfxUnit byte0.toNat 1 0 = .next (fieldExtract byte0 byte1).w.toNat ∧
    bfxUnit byte1.toNat 8 6 = .next (fieldExtract byte0 byte1).mod.toNat ∧
    bfxUnit byte1.toNat 6 3 = .next (fieldExtract byte0 byte1).reg.toNat ∧
    bfxUnit byte1.toNat 3 0 = .next (fieldExtract byte0 byte1).rm.toNat

/-! ### Encoding (30_encoding.md, 41_field_extract.md) -/

/-- R70: the field extractor is a bijection between byte pairs and records, with the inverse the rule gives, and its
worked example. -/
def Obligations.FieldExtractIsABijection : Prop :=
  (∀ byte0 byte1 : Byte, ∃ r, fieldExtract byte0 byte1 = r ∧ byte0 = r.opCode ++ r.d ++ r.w ∧
    byte1 = r.mod ++ r.reg ++ r.rm) ∧
  (∀ r : InstrRecord, fieldExtract (r.opCode ++ r.d ++ r.w) (r.mod ++ r.reg ++ r.rm) = r) ∧
  fieldExtract 0x89#8 0xD9#8 =
    { opCode := 0b100010#6, d := 0#1, w := 1#1, mod := 0b11#2, reg := 0b011#3, rm := 0b001#3 }

/-- R53: the chunks that decode are those with `IW & 0xFC00 = 0x8800`, that is with byte 0 one of 0x88 to 0x8B, and byte 0
names `d` and `w`. -/
def Obligations.OpcodeMapHasOneEntry : Prop :=
  ∀ byte0 byte1 : Byte,
    ((∃ i, decodeChunk byte0 byte1 = .ok i) ↔ (byte0 ++ byte1) &&& 0xFC00#16 = 0x8800#16) ∧
    ((∃ i, decodeChunk byte0 byte1 = .ok i) ↔ byte0 &&& 0xFC#8 = 0x88#8) ∧
    ((∃ i, decodeChunk byte0 byte1 = .ok i) ↔
      byte0 = 0x88#8 ∨ byte0 = 0x89#8 ∨ byte0 = 0x8A#8 ∨ byte0 = 0x8B#8) ∧
    (∀ d w mod reg rm, decodeChunk byte0 byte1 = .ok (.mov d w mod reg rm) →
      byte0 = BitVec.ofNat 8 (0x88 + 2 * d.toNat + w.toNat))

/-- A few words written out bit by bit from R49 and R53 decode to the instructions they stand for, and two with other
opcodes are rejected by name (a sanity statement on fixed words). -/
def Obligations.WordsWrittenOutDecode : Prop :=
  decodeChunk 0b10001001#8 0b11011001#8 = .ok (.mov 0#1 1#1 0b11#2 0b011#3 0b001#3) ∧
  decodeChunk 0b10001011#8 0b01000110#8 = .ok (.mov 1#1 1#1 0b01#2 0b000#3 0b110#3) ∧
  decodeChunk 0b10001000#8 0b11100000#8 = .ok (.mov 0#1 0#1 0b11#2 0b100#3 0b000#3) ∧
  decodeChunk 0b10000111#8 0b11011001#8 = .error (.unknownOpcode 0b100001#6) ∧
  decodeChunk 0b10001100#8 0b11011001#8 = .error (.unknownOpcode 0b100011#6)

/-- Decode and encode agree on whole streams: for every list of well-formed instructions (every instruction is one, R50),
with every field at every value, decoding the encoded stream gives the list back. -/
def Obligations.DecodeStreamOfEncodeStream : Prop :=
  ∀ is : List Instr, (∀ i ∈ is, i.wf = true) → decodeStream (encodeStream is) = .ok is

/-- The other direction: a stream that decodes is the encoding of what it decodes to, so that no two streams stand for one
list of instructions. -/
def Obligations.EncodeStreamOfDecodeStream : Prop :=
  ∀ (bytes : List Byte) (is : List Instr), decodeStream bytes = .ok is → encodeStream is = bytes

/-- The opcode table's numbering (log 14): a 16-bit table word decodes exactly when its bits 15 to 10 are `0b100010`, and
then to the instruction whose word it is. -/
def Obligations.TableWordDecodesToItsInstruction : Prop :=
  ∀ w : Nat, w < 65536 →
    (w / 1024 = 34 → ∃ i, decodeTableWord 16 w = some i ∧ (encodeWord i).toNat = w) ∧
    (w / 1024 ≠ 34 → decodeTableWord 16 w = none)

/-! ### The datapath and MOV (42_mov_resolver.md) -/

/-- R73: a register key is the selector plus 8 times the width flag, and no key overflows. -/
def Obligations.RegisterKeyIsSelectorPlusEightW : Prop :=
  ∀ (w : BitVec 1) (selector : Selector),
    (regKey w selector).toNat = selector.toNat + w.toNat * 8 ∧ (regKey w selector).toNat ≤ 15

/-- R77, R76, R78: where the three ROM entries are present, a chunk of `MOV`'s opcode renders to the line of R77's pseudocode,
for every content of the ROMs and both values of `HONOR_D`. -/
def Obligations.MovRendersItsLine : Prop :=
  ∀ (mnRom : Vector (Option Text) 64) (regRom : Vector (Option Text) 16) (honorD : Bool) (byte0 byte1 : Byte)
    (mnemonic nameRm nameReg : Text),
    byte0.extractLsb' 2 6 = 0b100010#6 →
    mnemonicAt mnRom 0b100010#6 = some mnemonic →
    registerAt regRom (byte0.extractLsb' 0 1 ++ byte1.extractLsb' 0 3) = some nameRm →
    registerAt regRom (byte0.extractLsb' 0 1 ++ byte1.extractLsb' 3 3) = some nameReg →
    decode1 mnRom regRom honorD (fieldExtract byte0 byte1) = .ok
      (lower (mnemonic ++ [0x20#8] ++ (if honorD = true ∧ byte0.extractLsb' 1 1 = 1#1 then nameReg else nameRm) ++
        [0x2C#8, 0x20#8] ++ (if honorD = true ∧ byte0.extractLsb' 1 1 = 1#1 then nameRm else nameReg)))

/-- R77 with R76 and R78 for the line, R84 for the rest: where the three ROM entries are present, `MOV` appends its line (after a
separator if it is not the first), counts it, moves the cursor by 2 and ends the run at `L`; nothing else changes. This
is `MOV`'s completion. (That `exec` does so whatever `STATE` holds is the model's choice, log 15; a step calls it in
`RUNNING` only.) -/
def Obligations.MovAppendsItsLine : Prop :=
  ∀ (d w : BitVec 1) (mod : BitVec 2) (reg rm : Selector) (s : State) (mnemonic nameRm nameReg : Text),
    mnemonicAt s.mnRom 0b100010#6 = some mnemonic →
    registerAt s.regRom (w ++ rm) = some nameRm →
    registerAt s.regRom (w ++ reg) = some nameReg →
    exec (.mov d w mod reg rm) s = .next { s with
      text := (if 0 < s.lines then s.text ++ [0x0A#8] else s.text) ++
        lower (mnemonic ++ [0x20#8] ++ (if s.honorD = true ∧ d = 1#1 then nameReg else nameRm) ++
          [0x2C#8, 0x20#8] ++ (if s.honorD = true ∧ d = 1#1 then nameRm else nameReg))
      lines := s.lines + 1
      cursor := s.cursor + 2
      seq := if s.cursor + 2 = s.len then .done else s.seq }

/-- R21, R24, R76, R77 and R84 together: on the ROMs of the block and the default `HONOR_D = false`, the line `MOV` appends,
after the separator where R84 puts one, is `mov`, a space, the name of `{w, r_m}`, a comma, a space and the name of
`{w, reg}`, by the table of R24 (whose names are PRESUMED by the spec, D5: log 7). That `exec` does so whatever `STATE`
holds is the model's choice, log 15. -/
def Obligations.MovLineByTheRegisterTable : Prop :=
  let names : List Text :=
    [ascii ['a', 'l'], ascii ['c', 'l'], ascii ['d', 'l'], ascii ['b', 'l'], ascii ['a', 'h'], ascii ['c', 'h'],
     ascii ['d', 'h'], ascii ['b', 'h'], ascii ['a', 'x'], ascii ['c', 'x'], ascii ['d', 'x'], ascii ['b', 'x'],
     ascii ['s', 'p'], ascii ['b', 'p'], ascii ['s', 'i'], ascii ['d', 'i']]
  ∀ (d w : BitVec 1) (mod : BitVec 2) (reg rm : Selector) (s : State), s.RomsIntact → s.honorD = false →
    ∃ op1 op2 t, names[rm.toNat + 8 * w.toNat]? = some op1 ∧ names[reg.toNat + 8 * w.toNat]? = some op2 ∧
      exec (.mov d w mod reg rm) s = .next t ∧
      t.text = (if 0 < s.lines then s.text ++ [0x0A#8] else s.text) ++
        (ascii ['m', 'o', 'v', ' '] ++ op1 ++ ascii [',', ' '] ++ op2) ∧
      t.lines = s.lines + 1 ∧ t.cursor = s.cursor + 2

/-- R75, R93: with a partial register-name ROM (log 6) an absent key enters `UNKNOWN_REGISTER`, with the chunk's offset and
opcode (R84, R91), and nothing else changes (R95); the ROM of R24 has no absent key. That `exec` enters the fault whatever
`STATE` holds is the model's choice, log 15. -/
def Obligations.AbsentRegisterEntersUnknownRegister : Prop :=
  (∀ (d w : BitVec 1) (mod : BitVec 2) (reg rm : Selector) (s : State) (mnemonic : Text),
    mnemonicAt s.mnRom 0b100010#6 = some mnemonic →
    registerAt s.regRom (w ++ rm) = none ∨ registerAt s.regRom (w ++ reg) = none →
    exec (.mov d w mod reg rm) s = .next { s with
      seq := .fault, faultCause := .unknownRegister, faultOffset := s.cursor, faultOpcode := 0b100010#6 }) ∧
  ∀ key : RegKey, registerAt registerTable key ≠ none

/-- R55, R67 and R76: no meaning depends on `mod`; with `HONOR_D = false` none depends on `d`; with `HONOR_D = true`,
`d = 1` prints what `d = 0` prints with the selectors exchanged (at every `STATE`: log 15). -/
def Obligations.ModIsNeverConsultedAndDOnlyWithHonorD : Prop :=
  ∀ (d d' w : BitVec 1) (mod mod' : BitVec 2) (reg rm : Selector) (s : State),
    exec (.mov d w mod reg rm) s = exec (.mov d w mod' reg rm) s ∧
    (s.honorD = false → exec (.mov d w mod reg rm) s = exec (.mov d' w mod reg rm) s) ∧
    (s.honorD = true → exec (.mov 1#1 w mod reg rm) s = exec (.mov 0#1 w mod rm reg) s)

/-- The frame of every instruction, whether it renders or enters a fault: the ROMs, the sampled length, the parameter, the
signals and every byte of the input space stay; a rendering leaves the fault record, a fault leaves the cursor, the
line count and the text (at every `STATE`: log 15). -/
def Obligations.InstructionFrame : Prop :=
  ∀ (i : Instr) (s t : State), exec i s = .next t →
    t.mnRom = s.mnRom ∧ t.regRom = s.regRom ∧ t.len = s.len ∧ t.honorD = s.honorD ∧ t.pins = s.pins ∧
    (∀ a, t.input.read a = s.input.read a) ∧ (∀ a, t.memRead a = s.memRead a) ∧
    ((t.faultCause = s.faultCause ∧ t.faultOffset = s.faultOffset ∧ t.faultOpcode = s.faultOpcode ∧
        t.cursor = s.cursor + 2 ∧ t.lines = s.lines + 1 ∧ (t.seq = s.seq ∨ t.seq = .done)) ∨
      (t.cursor = s.cursor ∧ t.lines = s.lines ∧ t.text = s.text ∧ t.seq = .fault))

/-- R78: on the ROMs of the block every `MOV` record renders to exactly 10 bytes, `mov` and a space first, with no
separator in it, whatever `HONOR_D`, `d`, `mod` and the selectors are. -/
def Obligations.EveryLineIsTenBytes : Prop :=
  ∀ (honorD : Bool) (r : InstrRecord), r.opCode = 0b100010#6 →
    ∃ line, decode1 mnemonicTable registerTable honorD r = .ok line ∧ line.length = 10 ∧
      line.take 4 = ascii ['m', 'o', 'v', ' '] ∧ line.drop 6 = ascii [',', ' '] ++ line.drop 8 ∧ 0x0A#8 ∉ line

/-- R57: a line is entirely lower case "regardless of the case of the table-stored names": no byte of any line, whatever the
ROMs hold, is an ASCII capital. -/
def Obligations.NoLineHoldsACapital : Prop :=
  ∀ (mnRom : Vector (Option Text) 64) (regRom : Vector (Option Text) 16) (honorD : Bool) (r : InstrRecord) (line : Text),
    decode1 mnRom regRom honorD r = .ok line → ∀ b ∈ line, ¬ (0x41#8 ≤ b ∧ b ≤ 0x5A#8)

/-- On the ROMs of the block (R23: every entry is unique) the line tells the operands: two `MOV` records that print one
line under `HONOR_D = false` have the same `w`, `r_m` and `reg`. -/
def Obligations.LineDeterminesItsOperands : Prop :=
  ∀ (r r' : InstrRecord) (line : Text), r.opCode = 0b100010#6 → r'.opCode = 0b100010#6 →
    decode1 mnemonicTable registerTable false r = .ok line →
    decode1 mnemonicTable registerTable false r' = .ok line →
    r.w = r'.w ∧ r.rm = r'.rm ∧ r.reg = r'.reg

/-- R79: the case in which the ROMs store their strings is unobservable: two pairs of ROMs that agree up to case give every
instruction the same effect at every state (other ROM contents are log 6, every `STATE` is log 15). -/
def Obligations.StoredCaseIsUnobservable : Prop :=
  ∀ (i : Instr) (s : State) (mnRom : Vector (Option Text) 64) (regRom : Vector (Option Text) 16),
    (∀ op, (mnemonicAt mnRom op).map lower = (mnemonicAt s.mnRom op).map lower) →
    (∀ key, (registerAt regRom key).map lower = (registerAt s.regRom key).map lower) →
    ∃ t, exec i s = .next t ∧
      exec i { s with mnRom := mnRom, regRom := regRom } = .next { t with mnRom := mnRom, regRom := regRom }

/-- R23: the contents of R24 meet every constraint on strings the source fixes (the contents are the spec's decision D5:
log 7). -/
def Obligations.RegisterTableMeetsItsConstraints : Prop := registerRomWf registerTable = true

/-! ### The sequencer (43_stream_sequencer.md, 60_exceptions.md, 70_reset_and_hazards.md) -/

/-- R33: the reset value of every piece of state, the ROMs' contents (R21, R24) written out. The 16 register names are
PRESUMED (log 7): the spec takes them from general knowledge (D5). -/
def Obligations.ResetValues : Prop :=
  (∀ op : OpCode, mnemonicAt State.reset.mnRom op = if op = 0b100010#6 then some (ascii ['m', 'o', 'v']) else none) ∧
  State.reset.regRom.toList =
    [some (ascii ['a', 'l']), some (ascii ['c', 'l']), some (ascii ['d', 'l']), some (ascii ['b', 'l']),
     some (ascii ['a', 'h']), some (ascii ['c', 'h']), some (ascii ['d', 'h']), some (ascii ['b', 'h']),
     some (ascii ['a', 'x']), some (ascii ['c', 'x']), some (ascii ['d', 'x']), some (ascii ['b', 'x']),
     some (ascii ['s', 'p']), some (ascii ['b', 'p']), some (ascii ['s', 'i']), some (ascii ['d', 'i'])] ∧
  State.reset.seq = .idle ∧ State.reset.cursor = 0 ∧ State.reset.text = [] ∧ State.reset.lines = 0 ∧
  State.reset.faultCause = .none ∧ State.reset.faultOffset = 0 ∧ State.reset.faultOpcode = 0#6

/-- R102: `reset` in any state, in the middle of a run too, sets every sequencer register to its reset value in one step and
leaves both ROMs unchanged; nothing is delivered. `start` may be asserted at the same step: that `reset` then wins is the
model's reading, log 2. -/
def Obligations.ResetActsInEveryState : Prop :=
  ∀ (s : State) (p : Pins) (rest : List Pins), s.pins = p :: rest → p.reset = true →
    ∃ t, step s = .next t ∧ t.seq = .idle ∧ t.cursor = 0 ∧ t.text = [] ∧ t.lines = 0 ∧ t.faultCause = .none ∧
      t.faultOffset = 0 ∧ t.faultOpcode = 0#6 ∧ t.mnRom = s.mnRom ∧ t.regRom = s.regRom ∧ t.result = none

/-- R83, R82, R95: the length check at start, before any chunk is read: an odd length enters `MALFORMED_LENGTH`, a zero
length is `DONE`, any other begins the run at offset 0, and nothing else changes. That a zero length leaves `CURSOR`,
`LINES` and `TEXT` as they are in every `IDLE` state is log 11; that the `L` sampled in the same step (R82) is a field of
State is log 4. (`reset` is not asserted here, so log 2 plays no part.) -/
def Obligations.StartChecksTheLength : Prop :=
  ∀ (s : State) (p : Pins) (rest : List Pins), s.pins = p :: rest → p.reset = false → p.start = true → s.seq = .idle →
    (p.inLen % 2 = 1 → step s = .next { s with
      pins := rest, len := p.inLen, seq := .fault, faultCause := .malformedLength
      faultOffset := p.inLen - 1, faultOpcode := 0#6 }) ∧
    (p.inLen = 0 → step s = .next { s with pins := rest, len := 0, seq := .done }) ∧
    (p.inLen % 2 = 0 → p.inLen ≠ 0 → step s = .next { s with
      pins := rest, len := p.inLen, cursor := 0, lines := 0, text := [], seq := .running })

/-- R82 and R105: outside `IDLE` neither `start` nor `in_len` has any effect, in a run or after it, with `reset` asserted
(log 2) or not. -/
def Obligations.StartAndLengthIgnoredOutsideIdle : Prop :=
  ∀ (s : State) (p p' : Pins) (rest : List Pins), s.seq ≠ .idle → p.reset = p'.reset →
    step { s with pins := p :: rest } = step { s with pins := p' :: rest }

/-- R103: `IDLE` waits while neither `reset` nor `start` is asserted (a step in which nothing is enabled changes nothing but
the signals consumed: log 3). -/
def Obligations.IdleWaitsForStart : Prop :=
  ∀ s : State, s.seq = .idle → s.pinsNow.reset = false → s.pinsNow.start = false →
    step s = .next { s with pins := s.pins.tail }

/-- A step runs the decoded instruction (R38, R84): in `RUNNING`, with `reset` not asserted, when the two bytes at the cursor
can be read and decode to `i`, the step is `exec i` at the state whose signals have been sampled; `exec` itself moves
the cursor. -/
def Obligations.StepRunsTheDecodedInstruction : Prop :=
  ∀ (s : State) (byte0 byte1 : Byte) (i : Instr), s.seq = .running → s.pinsNow.reset = false →
    s.memRead s.cursor = .ok byte0 → s.memRead (s.cursor + 1) = .ok byte1 → decodeChunk byte0 byte1 = .ok i →
    step s = exec i { s with pins := s.pins.tail }

/-- R54, R71, R92 and R97 (3): a chunk whose opcode has no entry in the mnemonic ROM enters `UNKNOWN_OPCODE` with its offset
and opcode, whatever the register-name ROM holds, so the opcode is checked before the registers; the fault entry of R95
changes nothing else, and the machine goes on to a next state. In the mnemonic ROM of the block (R21) the opcodes with no
entry are the other 63. (Other ROM contents are log 6.) -/
def Obligations.IllegalOpcodeEntersUnknownOpcode : Prop :=
  (∀ (s : State) (byte0 byte1 : Byte), s.seq = .running → s.pinsNow.reset = false →
    s.memRead s.cursor = .ok byte0 → s.memRead (s.cursor + 1) = .ok byte1 →
    mnemonicAt s.mnRom (byte0.extractLsb' 2 6) = none →
    step s = .next { s with
      pins := s.pins.tail, seq := .fault, faultCause := .unknownOpcode, faultOffset := s.cursor
      faultOpcode := byte0.extractLsb' 2 6 }) ∧
  ∀ op : OpCode, mnemonicAt mnemonicTable op = none ↔ op ≠ 0b100010#6

/-- When the model stops (R35; logs 9 and 10): exactly in a decode step that would read an offset not below `L` or a byte the
environment has not supplied. -/
def Obligations.StepStopsOnlyOnAMissingByte : Prop :=
  ∀ s : State,
    ((∃ f, step s = .fault f) ↔
      s.seq = .running ∧ s.pinsNow.reset = false ∧
        ¬ (s.cursor + 1 < s.len ∧ (s.input.read s.cursor).isSome = true ∧ (s.input.read (s.cursor + 1)).isSome = true)) ∧
    ∀ r, step s ≠ .refused r

/-- R85 and R87: `DONE` and `FAULT` stay through any number of steps that do not assert `reset`, `DONE` delivering its text
and `FAULT` none (that such a step changes nothing is log 3). -/
def Obligations.DoneAndFaultStayUntilReset : Prop :=
  ∀ (k : Nat) (s : State), s.seq = .done ∨ s.seq = .fault → s.NoResetAhead →
    ∃ t, steps k s = .next t ∧ t = { s with pins := s.pins.drop k } ∧
      (s.seq = .done → t.result = some s.text) ∧ (s.seq = .fault → t.result = none ∧ t.faulted = true)

/-- R25 and R36: no number of steps, resets among them, changes a ROM entry or a byte of the input space (the launch premise of
log 13), or the parameter `HONOR_D` (a field of State by log 8). -/
def Obligations.RomsAndInputNeverChange : Prop :=
  ∀ (k : Nat) (s t : State), steps k s = .next t →
    t.mnRom = s.mnRom ∧ t.regRom = s.regRom ∧ t.honorD = s.honorD ∧ t.input = s.input

/-- R34, R26, R30: the output signals with their codes, that `TEXT` is a result exactly in `DONE` (R28, R107), and the offsets
the coming step presents on `in_addr`, in ascending order: the two of the chunk in `RUNNING` without `reset`, none
otherwise (R41, R45; that `reset` keeps a step from reading follows R102). -/
def Obligations.OutputSignals : Prop :=
  ∀ s : State,
    s.outputs.text = s.text ∧ s.outputs.faultOffset = s.faultOffset ∧ s.outputs.faultOpcode = s.faultOpcode ∧
    (s.outputs.textValid = true ↔ s.seq = .done) ∧ (s.outputs.busy = true ↔ s.seq = .running) ∧
    (s.outputs.fault = true ↔ s.seq = .fault) ∧
    (s.outputs.faultCause = 0b00#2 ↔ s.faultCause = .none) ∧
    (s.outputs.faultCause = 0b01#2 ↔ s.faultCause = .unknownOpcode) ∧
    (s.outputs.faultCause = 0b10#2 ↔ s.faultCause = .unknownRegister) ∧
    (s.outputs.faultCause = 0b11#2 ↔ s.faultCause = .malformedLength) ∧
    (∀ t, s.result = some t ↔ s.seq = .done ∧ t = s.text) ∧
    (s.seq = .running → s.pinsNow.reset = false → s.inAddrs = [s.cursor, s.cursor + 1]) ∧
    (s.seq ≠ .running ∨ s.pinsNow.reset = true → s.inAddrs = [])

/-- R106 (R80): a step depends on no byte of the input space but the two of its own chunk. -/
def Obligations.StepReadsOnlyItsOwnChunk : Prop :=
  ∀ (s t : State) (m : Memory), m.read s.cursor = s.input.read s.cursor →
    m.read (s.cursor + 1) = s.input.read (s.cursor + 1) → step s = .next t →
    step { s with input := m } = .next { t with input := m }

/-! ### Invariants -/

/-- The invariant holds after reset, and still when the environment has supplied a stream and asserted `start` (R33,
R104; `launch` is log 12). -/
def Obligations.ResetMeetsTheInvariant : Prop :=
  State.reset.Inv ∧ ∀ bytes : List Byte, (State.reset.launch bytes).Inv

/-- Every step keeps the invariant, from every state that meets it: the cursor stays on its even offset and `LINES` is half of
it (R27, R29), the fault record is empty exactly outside `FAULT` and is what R91 gives inside it (R30 to R32, R95, R96),
and `TEXT` is the lines of the chunks decoded so far, joined (R28, R86). It covers the steps in which nothing is enabled
(log 3) and the sampled length's field (log 4). -/
def Obligations.StepKeepsTheInvariant : Prop :=
  ∀ s t : State, s.Inv → step s = .next t → t.Inv

/-- With the boot requirements met (R104) no state that meets the invariant stops, and the requirements stay met: the
rules read only offsets below `L` (R35, R84). -/
def Obligations.BootedBlockNeverStops : Prop :=
  ∀ s : State, s.Inv → s.BootMet → ∃ t, step s = .next t ∧ t.BootMet

/-- D18: every realisation's width does: whatever `CURSOR_BITS` is, if every length presented fits it, the cursor, the fault
offset and the line count keep fitting, so the unbounded naturals of the model never leave the realisation's registers
(R27: "It never wraps", R29). -/
def Obligations.EveryCursorWidthIsKept : Prop :=
  ∀ (cursorBits : Nat) (s t : State), s.Inv → s.FitsWidth cursorBits → step s = .next t → t.FitsWidth cursorBits

/-- R37: on the ROMs of the block every byte that reaches `TEXT` is a small letter, a space, a comma or the separator. -/
def Obligations.TextStaysLowerCaseAscii : Prop :=
  ∀ s t : State, s.RomsIntact → (∀ b ∈ s.text, isOutputByte b = true) → step s = .next t →
    t.RomsIntact ∧ ∀ b ∈ t.text, isOutputByte b = true

/-! ### Runs -/

/-- R90: a run that has begun reaches `DONE` or `FAULT` after at most as many decode steps as there are chunks left, if the
environment has met R104 and asserts no `reset`. -/
def Obligations.EveryRunEnds : Prop :=
  ∀ s : State, s.Inv → s.BootMet → s.NoResetAhead → s.seq = .running →
    ∃ k t, k ≤ (s.len - s.cursor) / 2 ∧ steps k s = .next t ∧ (t.seq = .done ∨ t.seq = .fault)

/-- R88: for every stream, every content of the ROMs and both values of `HONOR_D`, the block started from reset shows, after
its start step and one step per chunk, exactly the outcome of `Run(IN, L)`. (The steps counted after an early fault change
nothing: log 3. The load is `launch`: log 12.) -/
def Obligations.BlockComputesRun : Prop :=
  ∀ (mnRom : Vector (Option Text) 64) (regRom : Vector (Option Text) 16) (honorD : Bool) (bytes : List Byte),
    ∃ t, steps (1 + bytes.length / 2)
        (({ State.reset with mnRom := mnRom, regRom := regRom, honorD := honorD } : State).launch bytes) = .next t ∧
      t.observe = some (runStream mnRom regRom honorD bytes)

/-- R89: a stream of even length has half as many chunks as bytes, and the chunks' bytes in order are the stream; the block
run over it from reset ends with one line per chunk in `DONE`, and in `FAULT` with one per chunk before the faulting
one. (The steps counted after an early fault change nothing: log 3. The load is `launch`: log 12.) -/
def Obligations.ChunkingIsComplete : Prop :=
  ∀ bytes : List Byte, bytes.length % 2 = 0 →
    (chunksOf bytes).length = bytes.length / 2 ∧
    ((chunksOf bytes).flatMap fun c => [c.1, c.2]) = bytes ∧
    ∃ t, steps (1 + bytes.length / 2) (State.reset.launch bytes) = .next t ∧
      (t.seq = .done ∨ t.seq = .fault) ∧
      (t.seq = .done → t.lines = bytes.length / 2 ∧ t.cursor = bytes.length) ∧
      (t.seq = .fault → t.faultOffset = 2 * t.lines ∧ t.lines < bytes.length / 2)

/-- R96 and R97: the first faulting chunk is the one reported, precisely: if chunk `k` faults and every chunk before it
renders, the run ends in `FAULT` with that chunk's cause, offset and opcode, the cursor on it, and the lines of the
chunks before it, joined, in `TEXT`. (The steps counted after the fault change nothing: log 3. The load is `launch`:
log 12.) -/
def Obligations.FirstFaultingChunkIsReported : Prop :=
  ∀ (bytes : List Byte) (k : Nat) (byte0 byte1 : Byte) (cause : FaultCause) (lines : List Text),
    bytes.length % 2 = 0 → (chunksOf bytes)[k]? = some (byte0, byte1) →
    decode1 mnemonicTable registerTable false (fieldExtract byte0 byte1) = .error cause →
    lines.length = k →
    (∀ j, j < k → ∃ c line, (chunksOf bytes)[j]? = some c ∧ lines[j]? = some line ∧
      decode1 mnemonicTable registerTable false (fieldExtract c.1 c.2) = .ok line) →
    ∃ t, steps (1 + bytes.length / 2) (State.reset.launch bytes) = .next t ∧
      t.seq = .fault ∧ t.faultCause = cause ∧ t.faultOffset = 2 * k ∧ t.faultOpcode = byte0.extractLsb' 2 6 ∧
      t.cursor = 2 * k ∧ t.lines = k ∧ t.text = joinLines lines ∧ t.result = none

/-- The word placed by `withFetchWord` is what the next step runs, at every state (log 12, log 14). -/
def Obligations.FetchWordIsRunNext : Prop :=
  ∀ (s : State) (w : Nat) (i : Instr), w < 65536 → decodeTableWord 16 w = some i →
    step (s.withFetchWord 16 w) = exec i { s.withFetchWord 16 w with pins := s.pins.tail }
end

