-- ==== Sys2Proof/Laws/Decode.lean ====
section
/-! SUPPORT. The laws of the decoder and the encoder. -/

namespace Sys2Proof

theorem bfxInContract_iff (b s e : Nat) : bfxInContract b s e = true ↔ b < 256 ∧ e < s ∧ s ≤ 8 := by
  simp [bfxInContract, and_assoc]

/-- Inside the contract the extractor answers the masked shift. -/
theorem bfx_in_contract {b s e : Nat} (hb : b < 256) (he : e < s) (hs : s ≤ 8) :
    bfx b s e = some ((b >>> e) &&& (2 ^ (s - e) - 1)) := by
  simp [bfx, (bfxInContract_iff b s e).2 ⟨hb, he, hs⟩]

/-- Outside the contract the extractor answers nothing. -/
theorem bfx_out_of_contract {b s e : Nat} (h : ¬ (b < 256 ∧ e < s ∧ s ≤ 8)) : bfx b s e = none := by
  have : ¬ bfxInContract b s e = true := fun hc => h ((bfxInContract_iff b s e).1 hc)
  simp [bfx, this]

/-- A wired instance of the extractor is the general unit at its constants (R63). -/
theorem bfx_wired (b : Byte) {s e : Nat} (he : e < s) (hs : s ≤ 8) :
    bfx b.toNat s e = some (b.extractLsb' e (s - e)).toNat := by
  rw [bfx_in_contract b.isLt he hs, BitVec.extractLsb'_toNat, Nat.and_two_pow_sub_one_eq_mod]

/-- The instruction of a record whose opcode is `MOV`'s has that record. -/
theorem decodeRecord_ok_iff (r : InstrRecord) (i : Instr) : decodeRecord r = .ok i ↔ i.record = r := by
  obtain ⟨o, d, w, m, g, x⟩ := r
  cases i
  simp only [decodeRecord, InstrRecord.wf, Instr.record, beq_iff_eq, InstrRecord.mk.injEq]
  split
  · next h =>
    subst h
    simp only [Except.ok.injEq, Instr.mov.injEq, true_and]
    constructor <;> (rintro ⟨h1, h2, h3, h4, h5⟩; simp [h1, h2, h3, h4, h5])
  · next h => simp [Ne.symm h]

theorem decodeRecord_error_iff (r : InstrRecord) (e : Reject) :
    decodeRecord r = .error e ↔ r.opCode ≠ Config.movOpcode ∧ e = .unknownOpcode r.opCode := by
  simp only [decodeRecord, InstrRecord.wf, beq_iff_eq]
  split
  · next h => simp [h]
  · next h => simp [h, eq_comm]

/-- Splitting the bytes of a record gives the record back: no bit of a field is dropped (R70). -/
theorem fieldExtract_encodeRecord (r : InstrRecord) :
    fieldExtract (encodeRecord r).1 (encodeRecord r).2 = r := by
  obtain ⟨o, d, w, m, g, x⟩ := r
  simp only [fieldExtract, encodeRecord, InstrRecord.mk.injEq]
  refine ⟨?_, ?_, ?_, ?_, ?_, ?_⟩ <;> ext i hi <;>
    simp only [BitVec.getElem_extractLsb', BitVec.getLsbD_append] <;>
    simp only [← BitVec.getLsbD_eq_getElem] <;>
    repeat (first | rw [if_pos (by omega)] | rw [if_neg (by omega)])
  all_goals (congr 1; omega)

/-- Putting the fields of a chunk together gives its bytes back (R70). -/
theorem encodeRecord_fieldExtract (byte0 byte1 : Byte) :
    encodeRecord (fieldExtract byte0 byte1) = (byte0, byte1) := by
  simp only [fieldExtract, encodeRecord, Prod.mk.injEq]
  constructor <;> ext i hi <;>
    rw [← BitVec.getLsbD_eq_getElem, ← BitVec.getLsbD_eq_getElem] <;>
    simp only [BitVec.getLsbD_append, BitVec.getLsbD_extractLsb']
  · split
    · simp [show i = 0 by omega]
    · split
      · simp [show i = 1 by omega]
      · simp [show i - 1 - 1 < 6 by omega, show 2 + (i - 1 - 1) = i by omega]
  · split
    · next h => simp [h]
    · split
      · next _ h => simp [h, show 3 + (i - 3) = i by omega]
      · simp [show i - 3 - 3 < 2 by omega, show 6 + (i - 3 - 3) = i by omega]

@[simp] theorem Instr.record_opCode (i : Instr) : i.record.opCode = Config.movOpcode := by cases i; rfl

theorem decodeChunk_ok_iff (byte0 byte1 : Byte) (i : Instr) :
    decodeChunk byte0 byte1 = .ok i ↔ i.record = fieldExtract byte0 byte1 := decodeRecord_ok_iff _ _

theorem decodeChunk_error_iff (byte0 byte1 : Byte) (e : Reject) :
    decodeChunk byte0 byte1 = .error e ↔
      (fieldExtract byte0 byte1).opCode ≠ Config.movOpcode ∧ e = .unknownOpcode (fieldExtract byte0 byte1).opCode :=
  decodeRecord_error_iff _ _

@[simp] theorem decodeStream_nil : decodeStream [] = .ok [] := rfl

theorem decodeStream_cons_ok {byte0 byte1 : Byte} {i : Instr} (h : decodeChunk byte0 byte1 = .ok i) (rest : List Byte) :
    decodeStream (byte0 :: byte1 :: rest) =
      match decodeStream rest with
      | .error e => .error e
      | .ok is => .ok (i :: is) := by
  cases hs : decodeStream rest <;> simp [decodeStream, h, hs]

theorem decodeStream_cons_error {byte0 byte1 : Byte} {e : Reject} (h : decodeChunk byte0 byte1 = .error e)
    (rest : List Byte) : decodeStream (byte0 :: byte1 :: rest) = .error e := by
  simp [decodeStream, h]

/-- Every instruction's byte 0 has `MOV`'s six opcode bits on top (R53). -/
theorem encode_opCode (i : Instr) : (fieldExtract (encode i).1 (encode i).2).opCode = Config.movOpcode := by
  rw [encode, fieldExtract_encodeRecord]; simp

end Sys2Proof
end

