-- ==== Sys2Proof/Laws/Memory.lean ====
section
/-! SUPPORT. The laws of the input space: a read after a write, and the canonical form. -/

namespace Sys2Proof.Machine

theorem Memory.read_write (m : Memory) (a b : Nat) (v : Byte) :
    (m.write a v).read b = if b = a then some v else m.read b := by
  induction m with
  | nil => simp [Memory.write, Memory.read]
  | cons c rest ih =>
    obtain ⟨k, w⟩ := c
    simp only [Memory.write]
    split
    · simp [Memory.read]
    · split
      · next h => subst h; simp only [Memory.read]; split <;> rfl
      · next h1 h2 =>
        simp only [Memory.read, ih]
        split
        · next h => subst h; simp [Ne.symm h2]
        · rfl

@[simp] theorem Memory.read_write_same (m : Memory) (a : Nat) (v : Byte) : (m.write a v).read a = some v := by
  simp [Memory.read_write]

theorem Memory.read_write_other (m : Memory) {a b : Nat} (v : Byte) (h : b ≠ a) : (m.write a v).read b = m.read b := by
  simp [Memory.read_write, h]

/-- What the canonical form says of the first entry. -/
theorem Memory.wf_cons (k : Nat) (w : Byte) (rest : Memory) :
    Memory.wf ((k, w) :: rest) = true ↔ (∀ c ∈ rest.head?, k < c.1) ∧ Memory.wf rest = true := by
  cases rest with
  | nil => simp [Memory.wf]
  | cons c t => obtain ⟨b, v⟩ := c; simp [Memory.wf]

theorem Memory.head_write (m : Memory) (a : Nat) (v : Byte) :
    ∀ c ∈ (m.write a v).head?, c.1 = a ∨ ∃ d ∈ m.head?, c.1 = d.1 := by
  cases m with
  | nil => simp [Memory.write]
  | cons d t =>
    obtain ⟨k, w⟩ := d
    simp only [Memory.write]
    split
    · simp
    · split <;> simp

/-- The environment's write keeps the canonical form. -/
theorem Memory.wf_write {m : Memory} (a : Nat) (v : Byte) (h : m.wf = true) : (m.write a v).wf = true := by
  induction m with
  | nil => rfl
  | cons c rest ih =>
    obtain ⟨k, w⟩ := c
    rw [Memory.wf_cons] at h
    simp only [Memory.write]
    split
    · next hlt => rw [Memory.wf_cons, Memory.wf_cons]; exact ⟨by simp [hlt], h⟩
    · split
      · next _ heq => subst heq; rw [Memory.wf_cons]; exact h
      · next hge hne =>
        rw [Memory.wf_cons]
        refine ⟨fun c hc => ?_, ih h.2⟩
        rcases Memory.head_write rest a v c hc with e | ⟨d, hd, e⟩
        · omega
        · rw [e]; exact h.1 d hd

/-- The space built from a stream is in canonical form. -/
theorem Memory.wf_ofBytes (base : Nat) (bytes : List Byte) : (Memory.ofBytes base bytes).wf = true := by
  induction bytes generalizing base with
  | nil => rfl
  | cons b rest ih =>
    rw [Memory.ofBytes, Memory.wf_cons]
    refine ⟨fun c hc => ?_, ih _⟩
    cases rest with
    | nil => simp [Memory.ofBytes] at hc
    | cons d t => simp [Memory.ofBytes] at hc; subst hc; exact Nat.lt_succ_self base

/-- A space built from a stream reads as the stream. -/
theorem Memory.read_ofBytes (base : Nat) (bytes : List Byte) (a : Nat) :
    (Memory.ofBytes base bytes).read (base + a) = bytes[a]? := by
  induction bytes generalizing base a with
  | nil => simp [Memory.ofBytes, Memory.read]
  | cons b rest ih =>
    cases a with
    | zero => simp [Memory.ofBytes, Memory.read]
    | succ n =>
      have h : base + (n + 1) = base + 1 + n := by omega
      rw [Memory.ofBytes, Memory.read, if_neg (by omega), h, ih]
      simp

@[simp] theorem Memory.read_ofBytes_zero (bytes : List Byte) (a : Nat) :
    (Memory.ofBytes 0 bytes).read a = bytes[a]? := by
  simpa using Memory.read_ofBytes 0 bytes a

end Sys2Proof.Machine
end

