-- ==== Sys2Proof/Laws/State.lean ====
section
/-! SUPPORT. One lemma per field and update of the state, true by unfolding; later proofs rewrite with them instead of
unfolding a record update. -/

namespace Sys2Proof.Machine

@[simp] theorem State.raiseFault_mnRom (s : State) (c : FaultCause) (o : Nat) (p : OpCode) : (s.raiseFault c o p).mnRom = s.mnRom := rfl
@[simp] theorem State.raiseFault_regRom (s : State) (c : FaultCause) (o : Nat) (p : OpCode) : (s.raiseFault c o p).regRom = s.regRom := rfl
@[simp] theorem State.raiseFault_seq (s : State) (c : FaultCause) (o : Nat) (p : OpCode) : (s.raiseFault c o p).seq = .fault := rfl
@[simp] theorem State.raiseFault_cursor (s : State) (c : FaultCause) (o : Nat) (p : OpCode) : (s.raiseFault c o p).cursor = s.cursor := rfl
@[simp] theorem State.raiseFault_text (s : State) (c : FaultCause) (o : Nat) (p : OpCode) : (s.raiseFault c o p).text = s.text := rfl
@[simp] theorem State.raiseFault_lines (s : State) (c : FaultCause) (o : Nat) (p : OpCode) : (s.raiseFault c o p).lines = s.lines := rfl
@[simp] theorem State.raiseFault_faultCause (s : State) (c : FaultCause) (o : Nat) (p : OpCode) : (s.raiseFault c o p).faultCause = c := rfl
@[simp] theorem State.raiseFault_faultOffset (s : State) (c : FaultCause) (o : Nat) (p : OpCode) : (s.raiseFault c o p).faultOffset = o := rfl
@[simp] theorem State.raiseFault_faultOpcode (s : State) (c : FaultCause) (o : Nat) (p : OpCode) : (s.raiseFault c o p).faultOpcode = p := rfl
@[simp] theorem State.raiseFault_len (s : State) (c : FaultCause) (o : Nat) (p : OpCode) : (s.raiseFault c o p).len = s.len := rfl
@[simp] theorem State.raiseFault_honorD (s : State) (c : FaultCause) (o : Nat) (p : OpCode) : (s.raiseFault c o p).honorD = s.honorD := rfl
@[simp] theorem State.raiseFault_input (s : State) (c : FaultCause) (o : Nat) (p : OpCode) : (s.raiseFault c o p).input = s.input := rfl
@[simp] theorem State.raiseFault_pins (s : State) (c : FaultCause) (o : Nat) (p : OpCode) : (s.raiseFault c o p).pins = s.pins := rfl

@[simp] theorem State.textAppend_mnRom (s : State) (t : Text) : (s.textAppend t).mnRom = s.mnRom := rfl
@[simp] theorem State.textAppend_regRom (s : State) (t : Text) : (s.textAppend t).regRom = s.regRom := rfl
@[simp] theorem State.textAppend_seq (s : State) (t : Text) : (s.textAppend t).seq = s.seq := rfl
@[simp] theorem State.textAppend_cursor (s : State) (t : Text) : (s.textAppend t).cursor = s.cursor := rfl
@[simp] theorem State.textAppend_text (s : State) (t : Text) : (s.textAppend t).text = s.text ++ t := rfl
@[simp] theorem State.textAppend_lines (s : State) (t : Text) : (s.textAppend t).lines = s.lines := rfl
@[simp] theorem State.textAppend_faultCause (s : State) (t : Text) : (s.textAppend t).faultCause = s.faultCause := rfl
@[simp] theorem State.textAppend_faultOffset (s : State) (t : Text) : (s.textAppend t).faultOffset = s.faultOffset := rfl
@[simp] theorem State.textAppend_faultOpcode (s : State) (t : Text) : (s.textAppend t).faultOpcode = s.faultOpcode := rfl
@[simp] theorem State.textAppend_len (s : State) (t : Text) : (s.textAppend t).len = s.len := rfl
@[simp] theorem State.textAppend_honorD (s : State) (t : Text) : (s.textAppend t).honorD = s.honorD := rfl
@[simp] theorem State.textAppend_input (s : State) (t : Text) : (s.textAppend t).input = s.input := rfl
@[simp] theorem State.textAppend_pins (s : State) (t : Text) : (s.textAppend t).pins = s.pins := rfl

@[simp] theorem State.advance_mnRom (s : State) : (s.advance).mnRom = s.mnRom := rfl
@[simp] theorem State.advance_regRom (s : State) : (s.advance).regRom = s.regRom := rfl
@[simp] theorem State.advance_seq (s : State) : (s.advance).seq = if s.cursor + 2 = s.len then .done else s.seq := rfl
@[simp] theorem State.advance_cursor (s : State) : (s.advance).cursor = s.cursor + 2 := rfl
@[simp] theorem State.advance_text (s : State) : (s.advance).text = s.text := rfl
@[simp] theorem State.advance_lines (s : State) : (s.advance).lines = s.lines + 1 := rfl
@[simp] theorem State.advance_faultCause (s : State) : (s.advance).faultCause = s.faultCause := rfl
@[simp] theorem State.advance_faultOffset (s : State) : (s.advance).faultOffset = s.faultOffset := rfl
@[simp] theorem State.advance_faultOpcode (s : State) : (s.advance).faultOpcode = s.faultOpcode := rfl
@[simp] theorem State.advance_len (s : State) : (s.advance).len = s.len := rfl
@[simp] theorem State.advance_honorD (s : State) : (s.advance).honorD = s.honorD := rfl
@[simp] theorem State.advance_input (s : State) : (s.advance).input = s.input := rfl
@[simp] theorem State.advance_pins (s : State) : (s.advance).pins = s.pins := rfl

@[simp] theorem State.applyReset_mnRom (s : State) : (s.applyReset).mnRom = s.mnRom := rfl
@[simp] theorem State.applyReset_regRom (s : State) : (s.applyReset).regRom = s.regRom := rfl
@[simp] theorem State.applyReset_seq (s : State) : (s.applyReset).seq = .idle := rfl
@[simp] theorem State.applyReset_cursor (s : State) : (s.applyReset).cursor = 0 := rfl
@[simp] theorem State.applyReset_text (s : State) : (s.applyReset).text = [] := rfl
@[simp] theorem State.applyReset_lines (s : State) : (s.applyReset).lines = 0 := rfl
@[simp] theorem State.applyReset_faultCause (s : State) : (s.applyReset).faultCause = .none := rfl
@[simp] theorem State.applyReset_faultOffset (s : State) : (s.applyReset).faultOffset = 0 := rfl
@[simp] theorem State.applyReset_faultOpcode (s : State) : (s.applyReset).faultOpcode = 0#6 := rfl
@[simp] theorem State.applyReset_len (s : State) : (s.applyReset).len = 0 := rfl
@[simp] theorem State.applyReset_honorD (s : State) : (s.applyReset).honorD = s.honorD := rfl
@[simp] theorem State.applyReset_input (s : State) : (s.applyReset).input = s.input := rfl
@[simp] theorem State.applyReset_pins (s : State) : (s.applyReset).pins = s.pins := rfl

@[simp] theorem State.afterPins_mnRom (s : State) : (s.afterPins).mnRom = s.mnRom := rfl
@[simp] theorem State.afterPins_regRom (s : State) : (s.afterPins).regRom = s.regRom := rfl
@[simp] theorem State.afterPins_seq (s : State) : (s.afterPins).seq = s.seq := rfl
@[simp] theorem State.afterPins_cursor (s : State) : (s.afterPins).cursor = s.cursor := rfl
@[simp] theorem State.afterPins_text (s : State) : (s.afterPins).text = s.text := rfl
@[simp] theorem State.afterPins_lines (s : State) : (s.afterPins).lines = s.lines := rfl
@[simp] theorem State.afterPins_faultCause (s : State) : (s.afterPins).faultCause = s.faultCause := rfl
@[simp] theorem State.afterPins_faultOffset (s : State) : (s.afterPins).faultOffset = s.faultOffset := rfl
@[simp] theorem State.afterPins_faultOpcode (s : State) : (s.afterPins).faultOpcode = s.faultOpcode := rfl
@[simp] theorem State.afterPins_len (s : State) : (s.afterPins).len = s.len := rfl
@[simp] theorem State.afterPins_honorD (s : State) : (s.afterPins).honorD = s.honorD := rfl
@[simp] theorem State.afterPins_input (s : State) : (s.afterPins).input = s.input := rfl
@[simp] theorem State.afterPins_pins (s : State) : (s.afterPins).pins = s.pins.tail := rfl

@[simp] theorem State.launch_mnRom (s : State) (bytes : List Byte) : (s.launch bytes).mnRom = s.mnRom := rfl
@[simp] theorem State.launch_regRom (s : State) (bytes : List Byte) : (s.launch bytes).regRom = s.regRom := rfl
@[simp] theorem State.launch_seq (s : State) (bytes : List Byte) : (s.launch bytes).seq = s.seq := rfl
@[simp] theorem State.launch_cursor (s : State) (bytes : List Byte) : (s.launch bytes).cursor = s.cursor := rfl
@[simp] theorem State.launch_text (s : State) (bytes : List Byte) : (s.launch bytes).text = s.text := rfl
@[simp] theorem State.launch_lines (s : State) (bytes : List Byte) : (s.launch bytes).lines = s.lines := rfl
@[simp] theorem State.launch_faultCause (s : State) (bytes : List Byte) : (s.launch bytes).faultCause = s.faultCause := rfl
@[simp] theorem State.launch_faultOffset (s : State) (bytes : List Byte) : (s.launch bytes).faultOffset = s.faultOffset := rfl
@[simp] theorem State.launch_faultOpcode (s : State) (bytes : List Byte) : (s.launch bytes).faultOpcode = s.faultOpcode := rfl
@[simp] theorem State.launch_len (s : State) (bytes : List Byte) : (s.launch bytes).len = s.len := rfl
@[simp] theorem State.launch_honorD (s : State) (bytes : List Byte) : (s.launch bytes).honorD = s.honorD := rfl
@[simp] theorem State.launch_input (s : State) (bytes : List Byte) : (s.launch bytes).input = Memory.ofBytes 0 bytes := rfl
@[simp] theorem State.launch_pins (s : State) (bytes : List Byte) : (s.launch bytes).pins = [{ reset := false, start := true, inLen := bytes.length }] := rfl

@[simp] theorem State.loadChunk_mnRom (s : State) (a b : Byte) : (s.loadChunk a b).mnRom = s.mnRom := rfl
@[simp] theorem State.loadChunk_regRom (s : State) (a b : Byte) : (s.loadChunk a b).regRom = s.regRom := rfl
@[simp] theorem State.loadChunk_seq (s : State) (a b : Byte) : (s.loadChunk a b).seq = .running := rfl
@[simp] theorem State.loadChunk_cursor (s : State) (a b : Byte) : (s.loadChunk a b).cursor = s.cursor := rfl
@[simp] theorem State.loadChunk_text (s : State) (a b : Byte) : (s.loadChunk a b).text = s.text := rfl
@[simp] theorem State.loadChunk_lines (s : State) (a b : Byte) : (s.loadChunk a b).lines = s.lines := rfl
@[simp] theorem State.loadChunk_faultCause (s : State) (a b : Byte) : (s.loadChunk a b).faultCause = s.faultCause := rfl
@[simp] theorem State.loadChunk_faultOffset (s : State) (a b : Byte) : (s.loadChunk a b).faultOffset = s.faultOffset := rfl
@[simp] theorem State.loadChunk_faultOpcode (s : State) (a b : Byte) : (s.loadChunk a b).faultOpcode = s.faultOpcode := rfl
@[simp] theorem State.loadChunk_len (s : State) (a b : Byte) : (s.loadChunk a b).len = max s.len (s.cursor + 2) := rfl
@[simp] theorem State.loadChunk_honorD (s : State) (a b : Byte) : (s.loadChunk a b).honorD = s.honorD := rfl
@[simp] theorem State.loadChunk_input (s : State) (a b : Byte) : (s.loadChunk a b).input = (s.input.write s.cursor a).write (s.cursor + 1) b := rfl

@[simp] theorem State.separate_mnRom (s : State) : s.separate.mnRom = s.mnRom := by
  unfold State.separate; split <;> simp
@[simp] theorem State.separate_regRom (s : State) : s.separate.regRom = s.regRom := by
  unfold State.separate; split <;> simp
@[simp] theorem State.separate_seq (s : State) : s.separate.seq = s.seq := by
  unfold State.separate; split <;> simp
@[simp] theorem State.separate_cursor (s : State) : s.separate.cursor = s.cursor := by
  unfold State.separate; split <;> simp
@[simp] theorem State.separate_text (s : State) : s.separate.text = if 0 < s.lines then s.text ++ [Config.lineSep] else s.text := by
  unfold State.separate; split <;> simp
@[simp] theorem State.separate_lines (s : State) : s.separate.lines = s.lines := by
  unfold State.separate; split <;> simp
@[simp] theorem State.separate_faultCause (s : State) : s.separate.faultCause = s.faultCause := by
  unfold State.separate; split <;> simp
@[simp] theorem State.separate_faultOffset (s : State) : s.separate.faultOffset = s.faultOffset := by
  unfold State.separate; split <;> simp
@[simp] theorem State.separate_faultOpcode (s : State) : s.separate.faultOpcode = s.faultOpcode := by
  unfold State.separate; split <;> simp
@[simp] theorem State.separate_len (s : State) : s.separate.len = s.len := by
  unfold State.separate; split <;> simp
@[simp] theorem State.separate_honorD (s : State) : s.separate.honorD = s.honorD := by
  unfold State.separate; split <;> simp
@[simp] theorem State.separate_input (s : State) : s.separate.input = s.input := by
  unfold State.separate; split <;> simp
@[simp] theorem State.separate_pins (s : State) : s.separate.pins = s.pins := by
  unfold State.separate; split <;> simp

@[simp] theorem State.appendLine_mnRom (s : State) (line : Text) : (s.appendLine line).mnRom = s.mnRom := by
  simp [State.appendLine]
@[simp] theorem State.appendLine_regRom (s : State) (line : Text) : (s.appendLine line).regRom = s.regRom := by
  simp [State.appendLine]
@[simp] theorem State.appendLine_seq (s : State) (line : Text) : (s.appendLine line).seq = if s.cursor + 2 = s.len then .done else s.seq := by
  simp [State.appendLine]
@[simp] theorem State.appendLine_cursor (s : State) (line : Text) : (s.appendLine line).cursor = s.cursor + 2 := by
  simp [State.appendLine]
@[simp] theorem State.appendLine_text (s : State) (line : Text) : (s.appendLine line).text = (if 0 < s.lines then s.text ++ [Config.lineSep] else s.text) ++ line := by
  simp [State.appendLine]
@[simp] theorem State.appendLine_lines (s : State) (line : Text) : (s.appendLine line).lines = s.lines + 1 := by
  simp [State.appendLine]
@[simp] theorem State.appendLine_faultCause (s : State) (line : Text) : (s.appendLine line).faultCause = s.faultCause := by
  simp [State.appendLine]
@[simp] theorem State.appendLine_faultOffset (s : State) (line : Text) : (s.appendLine line).faultOffset = s.faultOffset := by
  simp [State.appendLine]
@[simp] theorem State.appendLine_faultOpcode (s : State) (line : Text) : (s.appendLine line).faultOpcode = s.faultOpcode := by
  simp [State.appendLine]
@[simp] theorem State.appendLine_len (s : State) (line : Text) : (s.appendLine line).len = s.len := by
  simp [State.appendLine]
@[simp] theorem State.appendLine_honorD (s : State) (line : Text) : (s.appendLine line).honorD = s.honorD := by
  simp [State.appendLine]
@[simp] theorem State.appendLine_input (s : State) (line : Text) : (s.appendLine line).input = s.input := by
  simp [State.appendLine]
@[simp] theorem State.appendLine_pins (s : State) (line : Text) : (s.appendLine line).pins = s.pins := by
  simp [State.appendLine]

end Sys2Proof.Machine
end

