-- ==== Sys2Proof/Laws/Ops.lean ====
section
/-! SUPPORT. What each shared operation can do, said once, and the inversion of the step. -/

namespace Sys2Proof.Machine

/-! ### Reading the input space -/

/-- A read answers a byte exactly when the offset is below `L` and the environment has supplied that byte. -/
theorem State.memRead_ok_iff (s : State) (off : Nat) (b : Byte) :
    s.memRead off = .ok b ↔ off < s.len ∧ s.input.read off = some b := by
  unfold State.memRead
  split
  · cases s.input.read off <;> simp_all
  · next h => simp [h]

/-- A read depends on the length and on the byte at its offset alone. -/
theorem State.memRead_congr {s t : State} {off : Nat} (hl : s.len = t.len)
    (hi : s.input.read off = t.input.read off) : s.memRead off = t.memRead off := by
  simp only [State.memRead, hl, hi]

/-! ### The datapath -/

/-- Every way the lookup can end: the cause of an absent entry, or the resolved instruction (R71 to R76). -/
theorem resolve_cases (mn : Vector (Option Text) 64) (rr : Vector (Option Text) 16) (h : Bool) (r : InstrRecord) :
    (mnemonicAt mn r.opCode = none ∧ resolve mn rr h r = .error .unknownOpcode) ∨
    (mnemonicAt mn r.opCode ≠ none ∧
      (registerAt rr (regKey r.w r.rm) = none ∨ registerAt rr (regKey r.w r.reg) = none) ∧
      resolve mn rr h r = .error .unknownRegister) ∨
    (∃ m a b, mnemonicAt mn r.opCode = some m ∧ registerAt rr (regKey r.w r.rm) = some a ∧
      registerAt rr (regKey r.w r.reg) = some b ∧
      resolve mn rr h r = .ok ⟨m, (operandOrder h r.d a b).1, (operandOrder h r.d a b).2⟩) := by
  unfold resolve
  rcases hm : mnemonicAt mn r.opCode with _ | m
  · simp
  · rcases ha : registerAt rr (regKey r.w r.rm) with _ | a
    · simp
    · rcases hb : registerAt rr (regKey r.w r.reg) with _ | b
      · simp
      · simp

/-- The only causes the datapath answers, and when it answers each (R80). -/
theorem decode1_error {mn : Vector (Option Text) 64} {rr : Vector (Option Text) 16} {h : Bool} {r : InstrRecord}
    {c : FaultCause} (e : decode1 mn rr h r = .error c) :
    (c = .unknownOpcode ∧ mnemonicAt mn r.opCode = none) ∨ (c = .unknownRegister ∧ mnemonicAt mn r.opCode ≠ none) := by
  unfold decode1 at e
  rcases resolve_cases mn rr h r with ⟨h1, h2⟩ | ⟨h1, -, h2⟩ | ⟨m, a, b, h1, -, -, h2⟩ <;> simp [h2] at e
  · exact .inl ⟨e.symm, h1⟩
  · exact .inr ⟨e.symm, h1⟩

/-- The line of a record whose three entries are present (R77, R78). -/
theorem decode1_ok {mn : Vector (Option Text) 64} {rr : Vector (Option Text) 16} {r : InstrRecord} {m a b : Text}
    (h : Bool) (hm : mnemonicAt mn r.opCode = some m) (ha : registerAt rr (regKey r.w r.rm) = some a)
    (hb : registerAt rr (regKey r.w r.reg) = some b) :
    decode1 mn rr h r =
      .ok (format ⟨m, (operandOrder h r.d a b).1, (operandOrder h r.d a b).2⟩) := by
  simp [decode1, resolve, hm, ha, hb]

/-- The effect of a chunk that renders. -/
theorem State.decodeEffect_ok {s : State} {r : InstrRecord} {line : Text}
    (h : decode1 s.mnRom s.regRom s.honorD r = .ok line) : s.decodeEffect r = s.appendLine line := by
  simp [State.decodeEffect, h]

/-- The effect of a chunk that faults. -/
theorem State.decodeEffect_error {s : State} {r : InstrRecord} {c : FaultCause}
    (h : decode1 s.mnRom s.regRom s.honorD r = .error c) : s.decodeEffect r = s.raiseFault c s.cursor r.opCode := by
  simp [State.decodeEffect, h]

@[simp] theorem State.decodeEffect_mnRom (s : State) (r : InstrRecord) : (s.decodeEffect r).mnRom = s.mnRom := by
  unfold State.decodeEffect; split <;> simp
@[simp] theorem State.decodeEffect_regRom (s : State) (r : InstrRecord) : (s.decodeEffect r).regRom = s.regRom := by
  unfold State.decodeEffect; split <;> simp
@[simp] theorem State.decodeEffect_honorD (s : State) (r : InstrRecord) : (s.decodeEffect r).honorD = s.honorD := by
  unfold State.decodeEffect; split <;> simp
@[simp] theorem State.decodeEffect_len (s : State) (r : InstrRecord) : (s.decodeEffect r).len = s.len := by
  unfold State.decodeEffect; split <;> simp
@[simp] theorem State.decodeEffect_input (s : State) (r : InstrRecord) : (s.decodeEffect r).input = s.input := by
  unfold State.decodeEffect; split <;> simp
@[simp] theorem State.decodeEffect_pins (s : State) (r : InstrRecord) : (s.decodeEffect r).pins = s.pins := by
  unfold State.decodeEffect; split <;> simp

/-! ### Instructions and chunks -/

/-- Every instruction's meaning is the effect of its record. -/
theorem exec_eq (i : Instr) (s : State) : exec i s = .next (s.decodeEffect i.record) := by
  cases i; rfl

/-- Running a chunk is the effect of its record, whether it decodes to an instruction or not. -/
theorem runChunk_eq (byte0 byte1 : Byte) (s : State) :
    runChunk byte0 byte1 s = .next (s.decodeEffect (fieldExtract byte0 byte1)) := by
  unfold runChunk
  rcases h : decodeChunk byte0 byte1 with e | i
  · rfl
  · show exec i s = _
    rw [exec_eq, (decodeChunk_ok_iff _ _ _).1 h]

/-- A decode step whose two reads answer. -/
theorem decodeStep_ok {s : State} {byte0 byte1 : Byte} (h0 : s.memRead s.cursor = .ok byte0)
    (h1 : s.memRead (s.cursor + 1) = .ok byte1) :
    decodeStep s = .next (s.decodeEffect (fieldExtract byte0 byte1)) := by
  simp [decodeStep, h0, h1, runChunk_eq]

/-- A decode step that takes a next state has read both bytes. -/
theorem decodeStep_next {s s' : State} (h : decodeStep s = .next s') :
    ∃ byte0 byte1, s.memRead s.cursor = .ok byte0 ∧ s.memRead (s.cursor + 1) = .ok byte1 ∧
      s' = s.decodeEffect (fieldExtract byte0 byte1) := by
  unfold decodeStep at h
  rcases h0 : s.memRead s.cursor with e | byte0 <;> simp only [h0] at h
  · cases h
  · rcases h1 : s.memRead (s.cursor + 1) with e | byte1 <;> simp only [h1] at h
    · cases h
    · rw [runChunk_eq] at h
      cases h
      exact ⟨byte0, byte1, rfl, rfl, rfl⟩

/-- The effect of a record does not depend on the input space. -/
theorem State.decodeEffect_withInput (s : State) (m : Memory) (r : InstrRecord) :
    ({ s with input := m } : State).decodeEffect r = { s.decodeEffect r with input := m } := by
  rcases hd : decode1 s.mnRom s.regRom s.honorD r with c | line
  · rw [State.decodeEffect_error hd, State.decodeEffect_error (s := { s with input := m }) hd]; rfl
  · rw [State.decodeEffect_ok hd, State.decodeEffect_ok (s := { s with input := m }) hd]
    simp only [State.appendLine, State.separate, State.textAppend, State.advance]
    by_cases h : 0 < s.lines <;> simp [h]

/-! ### Signals -/

theorem State.pinsNow_cons {s : State} {p : Pins} {rest : List Pins} (h : s.pins = p :: rest) : s.pinsNow = p := by
  simp [State.pinsNow, h]

theorem State.afterPins_cons {s : State} {p : Pins} {rest : List Pins} (h : s.pins = p :: rest) :
    s.afterPins = { s with pins := rest } := by
  simp [State.afterPins, h]

/-- Where no scheduled step asserts `reset`, the coming one does not. -/
theorem State.NoResetAhead.now {s : State} (h : s.NoResetAhead) : s.pinsNow.reset = false := by
  rcases hp : s.pins with _ | ⟨p, rest⟩
  · simp [State.pinsNow, hp]
  · rw [State.pinsNow_cons hp]; exact h p (by simp [hp])

/-! ### Start -/

/-- The three ends of a start (R83). -/
theorem State.beginRun_cases (s : State) (n : Nat) :
    (n % 2 = 1 ∧ s.beginRun n = { s with
      len := n, seq := .fault, faultCause := .malformedLength, faultOffset := n - 1, faultOpcode := 0#6 }) ∨
    (n = 0 ∧ s.beginRun n = { s with len := 0, seq := .done }) ∨
    (n % 2 = 0 ∧ 0 < n ∧ s.beginRun n = { s with len := n, cursor := 0, lines := 0, text := [], seq := .running }) := by
  unfold State.beginRun Config.instrBytes
  by_cases h : n % 2 = 1
  · exact .inl ⟨h, by simp [h, State.raiseFault]⟩
  · by_cases h0 : n = 0
    · subst h0; exact .inr (.inl ⟨rfl, by simp⟩)
    · exact .inr (.inr ⟨by omega, by omega, by simp [h, h0]⟩)

/-! ### The step -/

/-- `reset` in any state (R102). -/
theorem step_reset {s : State} (h : s.pinsNow.reset = true) : step s = .next s.afterPins.applyReset := by
  simp [step, sequencerStep, h]

/-- `IDLE` with `start` (R82). -/
theorem step_start {s : State} (hr : s.pinsNow.reset = false) (hs : s.seq = .idle) (ht : s.pinsNow.start = true) :
    step s = .next (s.afterPins.beginRun s.pinsNow.inLen) := by
  simp [step, sequencerStep, hr, hs, ht]

/-- A state with no step enabled stays. -/
theorem step_quiet {s : State} (hr : s.pinsNow.reset = false)
    (h : s.seq = .done ∨ s.seq = .fault ∨ (s.seq = .idle ∧ s.pinsNow.start = false)) : step s = .next s.afterPins := by
  rcases h with h | h | ⟨h, ht⟩ <;> simp_all [step, sequencerStep]

/-- `RUNNING` has the decode step (R84). -/
theorem step_running {s : State} (hr : s.pinsNow.reset = false) (hs : s.seq = .running) :
    step s = decodeStep s.afterPins := by
  simp [step, sequencerStep, hr, hs]

/-- `RUNNING` with both bytes of the chunk at hand (R84). -/
theorem step_running_ok {s : State} {byte0 byte1 : Byte} (hr : s.pinsNow.reset = false) (hs : s.seq = .running)
    (h0 : s.memRead s.cursor = .ok byte0) (h1 : s.memRead (s.cursor + 1) = .ok byte1) :
    step s = .next (s.afterPins.decodeEffect (fieldExtract byte0 byte1)) := by
  rw [step_running hr hs]
  exact decodeStep_ok (s := s.afterPins) h0 h1

/-- Everything a step that takes a next state can have done. -/
theorem step_cases {s s' : State} (h : step s = .next s') :
    (s.pinsNow.reset = true ∧ s' = s.afterPins.applyReset) ∨
    (s.pinsNow.reset = false ∧ s.seq = .idle ∧ s.pinsNow.start = true ∧ s' = s.afterPins.beginRun s.pinsNow.inLen) ∨
    (s.pinsNow.reset = false ∧ (s.seq = .done ∨ s.seq = .fault ∨ (s.seq = .idle ∧ s.pinsNow.start = false)) ∧
      s' = s.afterPins) ∨
    (s.pinsNow.reset = false ∧ s.seq = .running ∧ ∃ byte0 byte1,
      s.memRead s.cursor = .ok byte0 ∧ s.memRead (s.cursor + 1) = .ok byte1 ∧
      s' = s.afterPins.decodeEffect (fieldExtract byte0 byte1)) := by
  rcases hr : s.pinsNow.reset with _ | _
  · rcases hs : s.seq with _ | _ | _ | _
    · rcases ht : s.pinsNow.start with _ | _
      · rw [step_quiet hr (.inr (.inr ⟨hs, ht⟩))] at h
        cases h; simp
      · rw [step_start hr hs ht] at h
        cases h; simp
    · rw [step_running hr hs] at h
      obtain ⟨b0, b1, h0, h1, e⟩ := decodeStep_next h
      exact .inr (.inr (.inr ⟨rfl, rfl, b0, b1, h0, h1, e⟩))
    · rw [step_quiet hr (.inl hs)] at h
      cases h; simp
    · rw [step_quiet hr (.inr (.inl hs))] at h
      cases h; simp
  · rw [step_reset hr] at h
    cases h; simp

/-- No step answers a refusal. -/
theorem step_not_refused (s : State) (r : Refusal) : step s ≠ .refused r := by
  intro h
  rcases hr : s.pinsNow.reset with _ | _
  · rcases hs : s.seq with _ | _ | _ | _
    · rcases ht : s.pinsNow.start with _ | _
      · rw [step_quiet hr (.inr (.inr ⟨hs, ht⟩))] at h; cases h
      · rw [step_start hr hs ht] at h; cases h
    · rw [step_running hr hs, decodeStep] at h
      split at h
      · cases h
      · split at h
        · cases h
        · rw [runChunk_eq] at h; cases h
    · rw [step_quiet hr (.inl hs)] at h; cases h
    · rw [step_quiet hr (.inr (.inl hs))] at h; cases h
  · rw [step_reset hr] at h; cases h

/-! ### Text -/

@[simp] theorem lower_nil : lower [] = [] := rfl

@[simp] theorem lower_cons (b : Byte) (t : Text) : lower (b :: t) = lowerByte b :: lower t := rfl

@[simp] theorem lower_append (t u : Text) : lower (t ++ u) = lower t ++ lower u := by simp [lower]

/-- The formatter lowers each part on its own (R78). -/
theorem format_eq (r : Resolved) :
    format r = lower r.mnemonic ++ (0x20#8 :: lower r.op1) ++ (0x2C#8 :: 0x20#8 :: lower r.op2) := by
  have h1 : lower (ascii [' ']) = [0x20#8] := by decide
  have h2 : lower (ascii [',', ' ']) = [0x2C#8, 0x20#8] := by decide
  simp [format, h1, h2]

/-- One more line at the end of joined lines (R84, R86). -/
theorem joinLines_snoc (lines : List Text) (line : Text) :
    joinLines (lines ++ [line]) =
      (if 0 < lines.length then joinLines lines ++ [Config.lineSep] else joinLines lines) ++ line := by
  induction lines with
  | nil => rfl
  | cons a rest ih =>
    cases rest with
    | nil => simp [joinLines]
    | cons b t => simp only [List.cons_append, joinLines] at ih ⊢; simp [ih]

/-- The number of lines rendered is the number asked for. -/
theorem State.linesUpTo_length {s : State} {n : Nat} {ls : List Text} (h : s.linesUpTo n = some ls) :
    ls.length = n := by
  induction n generalizing ls with
  | zero => simp [State.linesUpTo] at h; subst h; rfl
  | succ n ih =>
    unfold State.linesUpTo at h
    split at h
    · next ls' l h1 _ => cases h; simp [ih h1]
    · cases h

/-- The rendered lines depend on the ROMs, the parameter and the input space alone. -/
theorem State.linesUpTo_congr {s t : State} (hm : s.mnRom = t.mnRom) (hr : s.regRom = t.regRom)
    (hh : s.honorD = t.honorD) (hi : s.input = t.input) (n : Nat) : s.linesUpTo n = t.linesUpTo n := by
  induction n with
  | zero => rfl
  | succ n ih => simp only [State.linesUpTo, State.lineOf, ih, hm, hr, hh, hi]

end Sys2Proof.Machine
end

