-- ==== Sys2Proof/Laws/PerInstr.lean ====
section
/-! SUPPORT. Statements about every instruction as syntax, one lemma per constructor. -/

namespace Sys2Proof

/-- Masking a 16-bit word's opcode bits leaves byte 0's (R53 over `IW` and over byte 0). -/
theorem opcodeMask_append (byte0 byte1 : Byte) :
    (byte0 ++ byte1) &&& 0xFC00#16 = (byte0 &&& 0xFC#8) ++ 0#8 := by
  have h : (0xFC00#16) = 0xFC#8 ++ 0#8 := by decide
  rw [h, BitVec.and_append]
  simp

/-- Byte 0 of a `MOV` under the opcode mask, whatever `d` and `w` are (R53). -/
theorem movByte0_masked : ∀ d w : BitVec 1, (Config.movOpcode ++ d ++ w) &&& 0xFC#8 = 0x88#8 := by decide

end Sys2Proof

/-- The family: an instruction's word meets its row of spec/opcode_table.json (mask 0xFC00, match 0x8800), and its record
names an instruction. -/
def Sys2Proof.Laws.MatchesTable.Statement (i : Sys2Proof.Instr) : Prop :=
  Sys2Proof.encodeWord i &&& 0xFC00#16 = 0x8800#16 ∧ i.record.wf = true

theorem Sys2Proof.Laws.MatchesTable.mov (d w : BitVec 1) (mod : BitVec 2) (reg rm : Sys2Proof.Selector) :
    Sys2Proof.Laws.MatchesTable.Statement (.mov d w mod reg rm) := by
  refine ⟨?_, rfl⟩
  rw [Sys2Proof.encodeWord, Sys2Proof.opcodeMask_append]
  show ((Sys2Proof.Config.movOpcode ++ d ++ w) &&& 0xFC#8) ++ 0#8 = _
  rw [Sys2Proof.movByte0_masked]
  decide
end

