-- ==== Sys2Proof/Laws/Run.lean ====
section
/-! SUPPORT. Runs of several steps. -/

namespace Sys2Proof.Machine

/-- A run's first step, taken apart. -/
theorem steps_succ {s t : State} (k : Nat) (h : step s = .next t) : steps (k + 1) s = steps k t := by
  simp [steps, h]

/-- What a run of at least one step to a next state went through. -/
theorem steps_succ_next {s s' : State} {k : Nat} (h : steps (k + 1) s = .next s') :
    ∃ t, step s = .next t ∧ steps k t = .next s' := by
  rw [steps] at h
  split at h
  · next t hs => exact ⟨t, hs, h⟩
  · cases h
  · cases h

/-- What every step keeps, every run keeps. -/
theorem steps_keep {P : State → Prop} (hstep : ∀ s s', P s → step s = .next s' → P s') (k : Nat) :
    ∀ {s s' : State}, P s → steps k s = .next s' → P s' := by
  induction k with
  | zero => intro s s' hp h; cases h; exact hp
  | succ k ih =>
    intro s s' hp h
    obtain ⟨t, ht, hr⟩ := steps_succ_next h
    exact ih (hstep s t hp ht) hr

/-- Two runs one after the other. -/
theorem steps_add {s t : State} (j k : Nat) (h : steps j s = .next t) : steps (j + k) s = steps k t := by
  induction j generalizing s with
  | zero => cases h; rw [Nat.zero_add]
  | succ j ih =>
    obtain ⟨u, hu, hr⟩ := steps_succ_next h
    rw [show j + 1 + k = j + k + 1 by omega, steps_succ _ hu, ih hr]

/-- A state with no step enabled and no signal scheduled stays through any number of steps. -/
theorem steps_quiet (k : Nat) {s : State} (hs : s.seq = .done ∨ s.seq = .fault) (hp : s.pins = []) :
    steps k s = .next s := by
  have hstay : s.afterPins = s := by cases s; simp_all [State.afterPins]
  induction k with
  | zero => rfl
  | succ k ih =>
    rw [steps_succ k (step_quiet (by simp [State.pinsNow, hp]) (by rcases hs with h | h <;> simp [h])), hstay, ih]

/-- The number of chunks of a stream. -/
theorem chunksOf_length (bytes : List Byte) : (chunksOf bytes).length = bytes.length / 2 := by
  induction bytes using chunksOf.induct with
  | case1 a b rest ih => simp [chunksOf, ih]; omega
  | case2 l h =>
    rcases l with _ | ⟨a, _ | ⟨b, r⟩⟩
    · rfl
    · simp [chunksOf]
    · exact absurd rfl (h a b r)

/-- Chunk `j` is bytes `2j` and `2j + 1` of the stream (R38). -/
theorem chunksOf_getElem (bytes : List Byte) : ∀ {j : Nat} {c : Byte × Byte}, (chunksOf bytes)[j]? = some c →
    bytes[2 * j]? = some c.1 ∧ bytes[2 * j + 1]? = some c.2 := by
  induction bytes using chunksOf.induct with
  | case1 a b rest ih =>
    intro j c h
    cases j with
    | zero => simp [chunksOf] at h; subst h; simp
    | succ j =>
      simp [chunksOf] at h
      rw [show 2 * (j + 1) = 2 * j + 1 + 1 by omega]
      simpa using ih h
  | case2 l h =>
    intro j c hc
    rcases l with _ | ⟨a, _ | ⟨b, r⟩⟩
    · simp [chunksOf] at hc
    · simp [chunksOf] at hc
    · exact absurd rfl (h a b r)

/-- Every step leaves the input space as it is, so it keeps its canonical form. -/
theorem step_input {s t : State} (h : step s = .next t) : t.input = s.input := by
  rcases step_cases h with ⟨-, rfl⟩ | ⟨-, -, -, rfl⟩ | ⟨-, -, rfl⟩ | ⟨-, -, b0, b1, -, -, rfl⟩
  · rfl
  · rcases State.beginRun_cases s.afterPins s.pinsNow.inLen with ⟨-, h'⟩ | ⟨-, h'⟩ | ⟨-, -, h'⟩ <;> rw [h'] <;> rfl
  · rfl
  · simp

/-- The input space is in canonical form at reset, and after each of the environment's operations. -/
theorem reset_input_wf : State.reset.input.wf = true := rfl

theorem launch_input_wf (s : State) (bytes : List Byte) : (s.launch bytes).input.wf = true := Memory.wf_ofBytes 0 bytes

theorem loadChunk_input_wf {s : State} (byte0 byte1 : Byte) (h : s.input.wf = true) :
    (s.loadChunk byte0 byte1).input.wf = true := by
  rw [State.loadChunk_input]
  exact Memory.wf_write _ _ (Memory.wf_write _ _ h)

/-- The run of any machine behind the host's interface, in terms of a step function of the same type. -/
theorem hostRun_eq (M : Host.Core) (f : Nat → M.State → Host.Outcome M.State M.Fault M.Refusal)
    (h0 : ∀ s, f 0 s = .next s)
    (hs : ∀ k s, f (k + 1) s = match M.step s with
      | .next t => f k t
      | .fault e => .fault e
      | .refused r => .refused r) (k : Nat) (s : M.State) : M.run k s = f k s := by
  induction k generalizing s with
  | zero => rw [h0]; rfl
  | succ k ih =>
    rw [hs, Host.Core.run]
    cases M.step s <;> simp [ih]

/-- `steps` is the host interface's run of this machine. -/
theorem core_run_eq_steps (k : Nat) (s : State) : core.run k s = steps k s := by
  refine hostRun_eq core steps (fun _ => rfl) (fun k (s : State) => ?_) k s
  rcases h : step s with t | f | r
  · have hc : core.step s = .next t := h
    rw [hc]; exact steps_succ k h
  · have hc : core.step s = .fault f := h
    rw [hc]; show steps (k + 1) s = .fault f
    simp [steps, h]
  · have hc : core.step s = .refused r := h
    rw [hc]; show steps (k + 1) s = .refused r
    simp [steps, h]

end Sys2Proof.Machine
end

