-- ==== Sys2Proof/Tests/Slice0.lean ====
section
/-! SUPPORT. Tests with results from 95_test_vectors.md or worked out by hand from the rules, the smoke tests of the checks,
and for every statement with hypotheses a concrete case that meets them. -/

namespace Sys2Proof.Tests

open Sys2Proof.Machine

/-- The next state of an outcome. -/
def nextOf : Host.Outcome State Fault Refusal → Option State
  | .next s => some s
  | .fault _ => none
  | .refused _ => none

/-- A block in the middle of a run, at its first chunk (after the start step of R83). -/
def runningOn (bytes : List Byte) : State :=
  { State.reset with seq := .running, len := bytes.length, input := Memory.ofBytes 0 bytes }

/-- The register-name ROM without CX (a partial ROM, R75). -/
def partialRom : Vector (Option Text) 16 := registerTable.set 9 none

/-! ### Smoke tests of the checks: an ill-formed term for each -/

theorem test_record_wf : (fieldExtract 0x89#8 0xD9#8).wf = true := by decide
theorem test_record_ill_formed_above : (fieldExtract 0x8C#8 0xD9#8).wf = false := by decide
theorem test_record_ill_formed_below : (fieldExtract 0x87#8 0xD9#8).wf = false := by decide
theorem test_length_ill_formed : lengthWf 3 = false ∧ lengthWf 4 = true := by decide
theorem test_contract_empty_range : bfxInContract 0xFF 4 4 = false := by decide
theorem test_contract_reversed : bfxInContract 0xFF 3 5 = false := by decide
theorem test_contract_above_byte : bfxInContract 0xFF 9 0 = false := by decide
theorem test_contract_no_byte : bfxInContract 0x100 8 0 = false := by decide
theorem test_memory_wf_refuses_disorder : Memory.wf [(1, 0#8), (0, 0#8)] = false := by decide
theorem test_memory_wf_refuses_repeat : Memory.wf [(1, 0#8), (1, 1#8)] = false := by decide
theorem test_rom_wf_refuses_partial : registerRomWf partialRom = false := by decide
theorem test_rom_wf_refuses_repeat : registerRomWf (registerTable.set 0 (some (ascii ['c', 'l']))) = false := by decide
theorem test_rom_wf_refuses_empty : registerRomWf (registerTable.set 0 (some [])) = false := by decide
theorem test_rom_wf_refuses_no_bx : registerRomWf (registerTable.set 11 (some (ascii ['b', 'z']))) = false := by decide

/-! ### Decoding (95_test_vectors.md 2.1, 2.2, 2.3) -/

theorem test_bfx_middle : bfx 0xA5 5 2 = some 1 := by decide
theorem test_bfx_whole_and_ends : bfx 0xA5 8 0 = some 165 ∧ bfx 0x80 8 7 = some 1 ∧ bfx 0x01 1 0 = some 1 := by decide
/-- `mov bx, cx` of the source's round trip (W6), fields by R49: op_code 100010, d 1, w 1, mod 11, reg 001, r_m 011. -/
theorem test_decode_round_trip_word :
    decodeChunk 0b10001011#8 0b11001011#8 = .ok (.mov 1#1 1#1 0b11#2 0b001#3 0b011#3) := rfl
theorem test_decode_memory_mode : decodeChunk 0x89#8 0x9F#8 = .ok (.mov 0#1 1#1 0b10#2 0b011#3 0b111#3) := rfl
theorem test_decode_rejects_36 : decodeChunk 0x90#8 0x90#8 = .error (.unknownOpcode 36#6) := rfl
theorem test_decode_bytes_rest :
    decodeBytes [0x88#8, 0xE0#8, 0x90#8] = .ok (.mov 0#1 0#1 0b11#2 0b100#3 0b000#3, [0x90#8]) := rfl
theorem test_decode_bytes_short :
    decodeBytes [0x89#8] = .error .shortChunk ∧ decodeBytes [] = .error .endOfStream := ⟨rfl, rfl⟩
theorem test_encode : encode (.mov 1#1 0#1 0b11#2 0b000#3 0b011#3) = (0x8A#8, 0xC3#8) := by decide
theorem test_table_word : decodeTableWord 16 0x8BC1 = some (.mov 1#1 1#1 0b11#2 0b000#3 0b001#3) := by decide
theorem test_table_word_edges :
    (decodeTableWord 16 0x8800).isSome = true ∧ (decodeTableWord 16 0x8BFF).isSome = true ∧
    decodeTableWord 16 0x87FF = none ∧ decodeTableWord 16 0x8C00 = none := by decide

/-! ### The formatter (2.6) and the ROM (2.4) -/

theorem test_format_lowers :
    format ⟨ascii ['M', 'o', 'v'], ascii ['A', 'l'], ascii ['a', 'H']⟩ =
      ascii ['m', 'o', 'v', ' ', 'a', 'l', ',', ' ', 'a', 'h'] := by decide
theorem test_lower_edges : lower [0x40#8, 0x41#8, 0x5A#8, 0x5B#8] = [0x40#8, 0x61#8, 0x7A#8, 0x5B#8] := by decide
theorem test_rom_ends :
    registerAt registerTable (regKey 0#1 0#3) = some (ascii ['a', 'l']) ∧
    registerAt registerTable (regKey 1#1 4#3) = some (ascii ['s', 'p']) ∧
    registerAt registerTable (regKey 1#1 7#3) = some (ascii ['d', 'i']) := by decide
theorem test_join :
    joinLines [] = [] ∧ joinLines [[1#8]] = [1#8] ∧ joinLines [[1#8], [2#8]] = [1#8, 0x0A#8, 2#8] := by decide

/-! ### One step (2.5, 2.7, P2, P6) -/

/-- MOV, `d = 1`: `8A C3` prints `mov bl, al` under `HONOR_D = false`. -/
theorem test_mov_line :
    (nextOf (step (runningOn [0x8A#8, 0xC3#8]))).map (fun t => (t.text, t.lines, t.cursor, t.seq)) =
      some (ascii ['m', 'o', 'v', ' ', 'b', 'l', ',', ' ', 'a', 'l'], 1, 2, .done) := by decide
/-- MOV, `8B 46` with `HONOR_D = true` prints `mov ax, si`, and a second line follows a separator. -/
theorem test_mov_honor_d_second_line :
    (nextOf (step { runningOn [0x8B#8, 0x46#8, 0#8, 0#8] with honorD := true, lines := 1, text := [0x21#8] })).map
        (fun t => (t.text, t.lines, t.cursor, t.seq)) =
      some (0x21#8 :: 0x0A#8 :: ascii ['m', 'o', 'v', ' ', 'a', 'x', ',', ' ', 's', 'i'], 2, 2, .running) := by decide
/-- `90 90` enters `UNKNOWN_OPCODE` with offset 0 and opcode 36, with the text and the cursor unchanged. -/
theorem test_unknown_opcode :
    (nextOf (step (runningOn [0x90#8, 0x90#8]))).map
        (fun t => (t.observe, t.cursor, t.text)) =
      some (some (.fault .unknownOpcode 0 36#6), 0, []) := by decide
/-- P4: a length of 3 is rejected at start, offset 2, opcode 0. -/
theorem test_malformed_length :
    (nextOf (step (State.reset.launch [0x89#8, 0xD9#8, 0x89#8]))).map
        (fun t => (t.seq, t.faultCause, t.faultOffset, t.faultOpcode, t.text)) =
      some (.fault, .malformedLength, 2, 0#6, []) := by decide
/-- P7: the empty input is done at once. -/
theorem test_empty_input :
    (nextOf (step (State.reset.launch []))).map (fun t => (t.result, t.lines, t.cursor)) = some (some [], 0, 0) := by decide
/-- `reset` in a run: the registers go back, the ROM stays. -/
theorem test_reset_in_a_run :
    (nextOf (step { runningOn [0x89#8, 0xD9#8] with pins := [⟨true, true, 2⟩], lines := 7 })).map
        (fun t => (t.seq, t.lines, t.regRom.toList)) = some (.idle, 0, registerTable.toList) := by decide
theorem test_fetch_word_runs :
    (nextOf (step (State.reset.withFetchWord 16 0x89D9))).map (·.text) =
      some (ascii ['m', 'o', 'v', ' ', 'c', 'x', ',', ' ', 'b', 'x']) := by decide
theorem test_outputs_of_a_fault :
    (State.reset.raiseFault .malformedLength 2 0#6).outputs = ⟨[], false, false, true, 0b11#2, 2, 0#6⟩ := by decide
/-- OutputSignals' clauses on `in_addr`: `RUNNING`, `IDLE`, and `RUNNING` with `reset`. -/
theorem test_in_addrs :
    (runningOn [0x89#8, 0xD9#8]).inAddrs = [0, 1] ∧ State.reset.inAddrs = [] ∧
    ({ runningOn [0x89#8, 0xD9#8] with pins := [⟨true, false, 0⟩] } : State).inAddrs = [] := by decide
theorem test_state_codes :
    SeqState.idle.code = 0#2 ∧ SeqState.running.code = 1#2 ∧ SeqState.done.code = 2#2 ∧ SeqState.fault.code = 3#2 := by
  decide

/-! ### Witnesses: each statement with hypotheses has a case that meets them -/

/-- ExtractorIsolatesItsBits, ExtractorRange, ExtractorReconstructsTheByte: both ends of the contract, and each way out. -/
theorem witness_extractor :
    bfxUnit 0xFF 8 0 = .next 255 ∧ bfxUnit 0 8 7 = .next 0 ∧ bfxUnit 0xFF 4 4 = .refused .bfxOutOfContract ∧
    bfxUnit 0xFF 9 0 = .refused .bfxOutOfContract ∧ bfxUnit 0x100 8 0 = .refused .bfxOutOfContract :=
  ⟨rfl, rfl, rfl, rfl, rfl⟩
/-- DecodeStreamOfEncodeStream, EncodeStreamOfDecodeStream. -/
theorem witness_streams :
    (∀ i ∈ [Instr.mov 0#1 1#1 3#2 3#3 1#3], i.wf = true) ∧
    decodeStream [0x89#8, 0xD9#8] = .ok [.mov 0#1 1#1 3#2 3#3 1#3] := ⟨by decide, rfl⟩
/-- TableWordDecodesToItsInstruction: the first and last word of the row, and a word of another opcode. -/
theorem witness_table_word : 0x8800 / 1024 = 34 ∧ 0x8BFF / 1024 = 34 ∧ 0x8C00 / 1024 ≠ 34 := by decide
/-- MovAppendsItsLine, and MovRendersItsLine for `89 D9` (w = 1, r_m = 1, reg = 3), at the reset ROMs. -/
theorem witness_mov_entries :
    (0x89#8).extractLsb' 2 6 = 0b100010#6 ∧ (0x89#8).extractLsb' 0 1 = 1#1 ∧ (0xD9#8).extractLsb' 0 3 = 1#3 ∧
    (0xD9#8).extractLsb' 3 3 = 3#3 ∧
    mnemonicAt State.reset.mnRom 0b100010#6 = some (ascii ['m', 'o', 'v']) ∧
    registerAt State.reset.regRom (1#1 ++ 1#3) = some (ascii ['c', 'x']) ∧
    registerAt State.reset.regRom (1#1 ++ 3#3) = some (ascii ['b', 'x']) := by decide
/-- MovLineByTheRegisterTable, TextStaysLowerCaseAscii. -/
theorem witness_roms_intact :
    State.reset.RomsIntact ∧ State.reset.honorD = false ∧ (∀ b ∈ State.reset.text, isOutputByte b = true) ∧
    step State.reset = .next State.reset := ⟨⟨rfl, rfl⟩, rfl, by decide, rfl⟩
/-- AbsentRegisterEntersUnknownRegister: `r_m` absent, and `reg` absent with `r_m` present. -/
theorem witness_absent_register :
    registerAt partialRom (1#1 ++ 1#3) = none ∧ registerAt partialRom (1#1 ++ 3#3) ≠ none := by decide
/-- ModIsNeverConsultedAndDOnlyWithHonorD: both values of `HONOR_D`. -/
theorem witness_honor_d : State.reset.honorD = false ∧ ({ State.reset with honorD := true } : State).honorD = true :=
  ⟨rfl, rfl⟩
/-- InstructionFrame: an instruction that renders, and one that faults. -/
theorem witness_frame :
    exec (.mov 0#1 1#1 3#2 3#3 1#3) State.reset = .next (State.reset.appendLine
      (ascii ['m', 'o', 'v', ' ', 'c', 'x', ',', ' ', 'b', 'x'])) ∧
    exec (.mov 0#1 1#1 3#2 3#3 1#3) { State.reset with regRom := partialRom } =
      .next ({ State.reset with regRom := partialRom }.raiseFault .unknownRegister 0 34#6) := ⟨rfl, rfl⟩
/-- EveryLineIsTenBytes, NoLineHoldsACapital, LineDeterminesItsOperands: two records that differ in `d` and `mod`, one
line. -/
theorem witness_one_line :
    (fieldExtract 0x8B#8 0x19#8).opCode = 0b100010#6 ∧ (fieldExtract 0x89#8 0xD9#8).opCode = 0b100010#6 ∧
    decode1 mnemonicTable registerTable false (fieldExtract 0x8B#8 0x19#8) =
      .ok (ascii ['m', 'o', 'v', ' ', 'c', 'x', ',', ' ', 'b', 'x']) ∧
    decode1 mnemonicTable registerTable false (fieldExtract 0x89#8 0xD9#8) =
      .ok (ascii ['m', 'o', 'v', ' ', 'c', 'x', ',', ' ', 'b', 'x']) := ⟨rfl, rfl, rfl, rfl⟩
/-- StoredCaseIsUnobservable: ROMs that hold `MOV` and `CX` (R79). -/
theorem witness_stored_case :
    (∀ op, (mnemonicAt (mnemonicTable.set 34 (some (ascii ['M', 'O', 'V']))) op).map lower =
      (mnemonicAt State.reset.mnRom op).map lower) ∧
    (∀ key, (registerAt (registerTable.set 9 (some (ascii ['C', 'X']))) key).map lower =
      (registerAt State.reset.regRom key).map lower) := by decide
/-- ResetActsInEveryState, StartChecksTheLength (lengths 1, 0 and 2), StartAndLengthIgnoredOutsideIdle. -/
theorem witness_pins :
    ({ runningOn [] with pins := [⟨true, false, 0⟩] } : State).pins = ⟨true, false, 0⟩ :: [] ∧
    ({ State.reset with pins := [⟨false, true, 1⟩] } : State).seq = .idle ∧ 1 % 2 = 1 ∧ 2 % 2 = 0 ∧
    (nextOf (step { State.reset with pins := [⟨false, true, 1⟩] })).map (·.seq) = some .fault ∧
    (nextOf (step { State.reset with pins := [⟨false, true, 0⟩] })).map (·.seq) = some .done ∧
    (nextOf (step { State.reset with pins := [⟨false, true, 2⟩] })).map (·.seq) = some .running ∧
    (runningOn []).seq ≠ .idle := by decide
/-- IdleWaitsForStart. -/
theorem witness_idle :
    State.reset.seq = .idle ∧ State.reset.pinsNow.reset = false ∧ State.reset.pinsNow.start = false := by decide
/-- StepRunsTheDecodedInstruction. -/
theorem witness_decoded_chunk :
    (runningOn [0x89#8, 0xD9#8]).seq = .running ∧ (runningOn [0x89#8, 0xD9#8]).pinsNow.reset = false ∧
    (runningOn [0x89#8, 0xD9#8]).memRead 0 = .ok 0x89#8 ∧ (runningOn [0x89#8, 0xD9#8]).memRead 1 = .ok 0xD9#8 ∧
    decodeChunk 0x89#8 0xD9#8 = .ok (.mov 0#1 1#1 3#2 3#3 1#3) := ⟨rfl, rfl, rfl, rfl, rfl⟩
/-- IllegalOpcodeEntersUnknownOpcode: a chunk of the opcode above `MOV`'s, on the mnemonic ROM of the block and a register-name
ROM in which `{w, r_m}`, key 9, is absent too. -/
theorem witness_illegal_chunk :
    ({ runningOn [0x8D#8, 0xD9#8] with regRom := partialRom } : State).memRead 0 = .ok 0x8D#8 ∧
    ({ runningOn [0x8D#8, 0xD9#8] with regRom := partialRom } : State).memRead 1 = .ok 0xD9#8 ∧
    mnemonicAt (runningOn [0x8D#8, 0xD9#8]).mnRom ((0x8D#8).extractLsb' 2 6) = none ∧
    registerAt partialRom ((0x8D#8).extractLsb' 0 1 ++ (0xD9#8).extractLsb' 0 3) = none :=
  ⟨rfl, rfl, rfl, rfl⟩
/-- StepStopsOnlyOnAMissingByte: both stops, the first offset that is not below `L` and the last that is. -/
theorem witness_stops :
    step (runningOn [0x89#8]) = .fault (.readPastInput 1) ∧
    step { runningOn [0x89#8] with len := 2 } = .fault (.byteNotSupplied 1) := ⟨rfl, rfl⟩
/-- DoneAndFaultStayUntilReset. -/
theorem witness_done_and_fault :
    ({ State.reset with seq := .done, pins := [⟨false, true, 2⟩] } : State).NoResetAhead ∧
    (State.reset.raiseFault .unknownOpcode 0 1#6).seq = .fault := by decide
/-- RomsAndInputNeverChange, StepReadsOnlyItsOwnChunk: a run of one step, over an input that differs after the chunk. -/
theorem witness_one_step :
    steps 1 State.reset = .next State.reset ∧
    Memory.read [(0, 0x89#8), (1, 0xD9#8), (5, 1#8)] 0 = (runningOn [0x89#8, 0xD9#8]).input.read 0 ∧
    (nextOf (step (runningOn [0x89#8, 0xD9#8]))).isSome = true := ⟨rfl, rfl, rfl⟩
/-- StepKeepsTheInvariant, BootedBlockNeverStops, EveryCursorWidthIsKept, EveryRunEnds: a run about to decode. -/
theorem witness_running_inv : (runningOn [0x89#8, 0xD9#8]).Inv := by
  exact ⟨⟨rfl, by decide, rfl⟩, ⟨rfl, rfl, rfl⟩, rfl⟩
theorem witness_running_environment :
    (runningOn [0x89#8, 0xD9#8]).BootMet ∧ (runningOn [0x89#8, 0xD9#8]).NoResetAhead ∧
    (runningOn [0x89#8, 0xD9#8]).FitsWidth 2 ∧ (nextOf (step (runningOn [0x89#8, 0xD9#8]))).isSome = true := by decide
/-- A state the invariant rules out: a cursor on an odd offset. -/
theorem test_inv_refuses_odd_cursor : ¬ ({ runningOn [0x89#8, 0xD9#8, 0#8, 0#8] with cursor := 1 } : State).Inv :=
  fun h => absurd (h.positioned : 1 = 2 * 0 ∧ _).1 (by decide)
/-- ChunkingIsComplete, FirstFaultingChunkIsReported: `89 C0 FF FF`, whose chunk 1 faults (2.7). -/
theorem witness_faulting_stream :
    [0x89#8, 0xC0#8, 0xFF#8, 0xFF#8].length % 2 = 0 ∧
    (chunksOf [0x89#8, 0xC0#8, 0xFF#8, 0xFF#8])[1]? = some (0xFF#8, 0xFF#8) ∧
    decode1 mnemonicTable registerTable false (fieldExtract 0xFF#8 0xFF#8) = .error .unknownOpcode ∧
    [ascii ['m', 'o', 'v', ' ', 'a', 'x', ',', ' ', 'a', 'x']].length = 1 ∧
    (chunksOf [0x89#8, 0xC0#8, 0xFF#8, 0xFF#8])[0]? = some (0x89#8, 0xC0#8) ∧
    decode1 mnemonicTable registerTable false (fieldExtract 0x89#8 0xC0#8) =
      .ok (ascii ['m', 'o', 'v', ' ', 'a', 'x', ',', ' ', 'a', 'x']) := ⟨rfl, rfl, rfl, rfl, rfl, rfl⟩
/-- FetchWordIsRunNext. -/
theorem witness_fetch_word : 0x89D9 < 65536 ∧ decodeTableWord 16 0x89D9 = some (.mov 0#1 1#1 3#2 3#3 1#3) := by decide

end Sys2Proof.Tests
end

/-! ### What no step changes: the ROMs, `HONOR_D` and the input space -/

namespace Sys2Proof.Machine

/-- A start leaves the ROMs, the parameter and the input space (R83). -/
theorem State.beginRun_frame (s : State) (n : Nat) :
    (s.beginRun n).mnRom = s.mnRom ∧ (s.beginRun n).regRom = s.regRom ∧ (s.beginRun n).honorD = s.honorD ∧
      (s.beginRun n).input = s.input := by
  rcases s.beginRun_cases n with ⟨-, h⟩ | ⟨-, h⟩ | ⟨-, -, h⟩ <;> simp [h]

/-- No step changes a ROM, `HONOR_D` or the input space (R25, R36). -/
theorem step_config {s t : State} (h : step s = .next t) :
    t.mnRom = s.mnRom ∧ t.regRom = s.regRom ∧ t.honorD = s.honorD ∧ t.input = s.input := by
  rcases step_cases h with ⟨-, rfl⟩ | ⟨-, -, -, rfl⟩ | ⟨-, -, rfl⟩ | ⟨-, -, b0, b1, -, -, rfl⟩
  · simp
  · exact s.afterPins.beginRun_frame s.pinsNow.inLen
  · simp
  · simp

/-! ### The invariant's three parts, state by state -/

theorem State.positioned_idle {s : State} (h : s.seq = .idle) :
    s.Positioned ↔ s.cursor = 0 ∧ s.lines = 0 ∧ s.text = [] := by
  simp [State.Positioned, h]

theorem State.positioned_running {s : State} (h : s.seq = .running) :
    s.Positioned ↔ s.cursor = 2 * s.lines ∧ s.cursor < s.len ∧ s.len % 2 = 0 := by
  simp [State.Positioned, h]

theorem State.positioned_done {s : State} (h : s.seq = .done) :
    s.Positioned ↔ s.cursor = 2 * s.lines ∧ s.cursor = s.len := by
  simp [State.Positioned, h]

theorem State.positioned_fault {s : State} (h : s.seq = .fault) :
    s.Positioned ↔ s.cursor = 2 * s.lines ∧ s.cursor < s.len := by
  simp [State.Positioned, h]

/-- Outside `FAULT` the fault record is empty (R30 to R32). -/
theorem State.recorded_of_ne_fault {s : State} (h : s.seq ≠ .fault) :
    s.Recorded ↔ s.faultCause = .none ∧ s.faultOffset = 0 ∧ s.faultOpcode = 0#6 := by
  rcases hs : s.seq with _ | _ | _ | _
  case fault => exact absurd hs h
  all_goals simp [State.Recorded, hs]

/-- With no line counted, the empty `TEXT` is the rendered one. -/
theorem State.rendered_of_no_lines {s : State} (hl : s.lines = 0) (ht : s.text = []) : s.Rendered := by
  simp [State.Rendered, State.linesUpTo, joinLines, hl, ht]

@[simp] theorem State.afterPins_linesUpTo (s : State) (n : Nat) : s.afterPins.linesUpTo n = s.linesUpTo n :=
  State.linesUpTo_congr (by simp) (by simp) (by simp) (by simp) n

@[simp] theorem State.raiseFault_linesUpTo (s : State) (c : FaultCause) (o : Nat) (p : OpCode) (n : Nat) :
    (s.raiseFault c o p).linesUpTo n = s.linesUpTo n :=
  State.linesUpTo_congr (by simp) (by simp) (by simp) (by simp) n

@[simp] theorem State.appendLine_linesUpTo (s : State) (line : Text) (n : Nat) :
    (s.appendLine line).linesUpTo n = s.linesUpTo n :=
  State.linesUpTo_congr (by simp) (by simp) (by simp) (by simp) n

/-- The line of a chunk whose two bytes are in the input space and which renders. -/
theorem State.lineOf_ok {s : State} {n : Nat} {byte0 byte1 : Byte} {line : Text}
    (h0 : s.input.read (2 * n) = some byte0) (h1 : s.input.read (2 * n + 1) = some byte1)
    (hd : decode1 s.mnRom s.regRom s.honorD (fieldExtract byte0 byte1) = .ok line) : s.lineOf n = some line := by
  simp [State.lineOf, h0, h1, hd, Except.toOption]

/-- One more chunk that renders is one more line (R86). -/
theorem State.linesUpTo_succ {s : State} {n : Nat} {ls : List Text} {line : Text} (hls : s.linesUpTo n = some ls)
    (hline : s.lineOf n = some line) : s.linesUpTo (n + 1) = some (ls ++ [line]) := by
  simp [State.linesUpTo, hls, hline]

/-! ### The invariant is kept, one operation at a time -/

/-- Reset establishes the invariant from any state (R33, R102). -/
theorem State.applyReset_inv (s : State) : s.applyReset.Inv :=
  ⟨⟨rfl, rfl, rfl⟩, ⟨rfl, rfl, rfl⟩, rfl⟩

/-- Sampling the signals touches nothing the invariant reads. -/
theorem State.Inv.afterPins {s : State} (h : s.Inv) : s.afterPins.Inv where
  positioned := h.positioned
  recorded := h.recorded
  rendered := by simpa [State.Rendered] using h.rendered

/-- A start in `IDLE` keeps the invariant, on each of the three ends of the length check (R83). -/
theorem State.Inv.beginRun {s : State} (h : s.Inv) (hs : s.seq = .idle) (n : Nat) : (s.beginRun n).Inv := by
  obtain ⟨hc, hl, ht⟩ := (State.positioned_idle hs).1 h.positioned
  have hrec := (State.recorded_of_ne_fault (by simp [hs])).1 h.recorded
  have hcl : s.cursor = 2 * s.lines := by omega
  rcases s.beginRun_cases n with ⟨hn, e⟩ | ⟨hn, e⟩ | ⟨hn, hpos, e⟩ <;> rw [e]
  · have hlt : s.cursor < n := by omega
    exact ⟨⟨hcl, hlt⟩, ⟨rfl, rfl, hn, hl, ht⟩, State.rendered_of_no_lines hl ht⟩
  · exact ⟨⟨hcl, hc⟩, hrec, State.rendered_of_no_lines hl ht⟩
  · exact ⟨⟨rfl, hpos, hn⟩, hrec, State.rendered_of_no_lines rfl rfl⟩

/-- The next line keeps the invariant in `RUNNING`: the cursor stays on an even offset, and reaches `L` in `DONE` (R84). -/
theorem State.Inv.appendLine {s : State} {line : Text} (h : s.Inv) (hs : s.seq = .running)
    (hline : s.lineOf s.lines = some line) : (s.appendLine line).Inv := by
  obtain ⟨hc, hlt, heven⟩ := (State.positioned_running hs).1 h.positioned
  have hrec := (State.recorded_of_ne_fault (by simp [hs])).1 h.recorded
  obtain ⟨ls, hls, htext⟩ := Option.map_eq_some_iff.1 h.rendered
  refine ⟨?_, ?_, ?_⟩
  · by_cases hend : s.cursor + 2 = s.len
    · rw [State.positioned_done (by simp [hend]), State.appendLine_cursor, State.appendLine_lines, State.appendLine_len]
      omega
    · rw [State.positioned_running (by simp [hend, hs]), State.appendLine_cursor, State.appendLine_lines,
        State.appendLine_len]
      omega
  · refine (State.recorded_of_ne_fault ?_).2 (by simpa using hrec)
    rw [State.appendLine_seq, hs]
    split <;> simp
  · have hlen := State.linesUpTo_length hls
    simp [State.Rendered, State.linesUpTo_succ hls hline, joinLines_snoc, htext, hlen]

/-- Entering a fault of the datapath keeps the invariant in `RUNNING`: the record is the chunk's (R84, R91, R95). -/
theorem State.Inv.raiseFault {s : State} {byte0 byte1 : Byte} {cause : FaultCause} (h : s.Inv) (hs : s.seq = .running)
    (h0 : s.input.read s.cursor = some byte0)
    (hd : decode1 s.mnRom s.regRom s.honorD (fieldExtract byte0 byte1) = .error cause) :
    (s.raiseFault cause s.cursor (fieldExtract byte0 byte1).opCode).Inv := by
  obtain ⟨hc, hlt, heven⟩ := (State.positioned_running hs).1 h.positioned
  have hopcode : (s.input.read s.cursor).map (fun b => b.extractLsb' 2 6) = some (fieldExtract byte0 byte1).opCode := by
    rw [h0]; rfl
  refine ⟨(State.positioned_fault rfl).2 ⟨hc, hlt⟩, ?_, ?_⟩
  · rcases decode1_error hd with ⟨rfl, hmn⟩ | ⟨rfl, hmn⟩
    · exact ⟨rfl, heven, hmn, hopcode⟩
    · exact ⟨rfl, heven, hmn, hopcode⟩
  · simpa [State.Rendered] using h.rendered

/-- The decode step's effect keeps the invariant, whether the chunk renders or faults (R84). -/
theorem State.Inv.decodeEffect {s : State} {byte0 byte1 : Byte} (h : s.Inv) (hs : s.seq = .running)
    (h0 : s.input.read s.cursor = some byte0) (h1 : s.input.read (s.cursor + 1) = some byte1) :
    (s.decodeEffect (fieldExtract byte0 byte1)).Inv := by
  rcases hd : decode1 s.mnRom s.regRom s.honorD (fieldExtract byte0 byte1) with cause | line
  · rw [State.decodeEffect_error hd]
    exact h.raiseFault hs h0 hd
  · rw [State.decodeEffect_ok hd]
    obtain ⟨hc, -, -⟩ := (State.positioned_running hs).1 h.positioned
    rw [hc] at h0 h1
    exact h.appendLine hs (State.lineOf_ok h0 h1 hd)

/-- Settles O35: each of the step's four cases is an operation that keeps the invariant. -/
theorem stepKeepsTheInvariant : Obligations.StepKeepsTheInvariant := by
  intro s t hi h
  rcases step_cases h with ⟨-, rfl⟩ | ⟨-, hs, -, rfl⟩ | ⟨-, -, rfl⟩ | ⟨-, hs, b0, b1, h0, h1, rfl⟩
  · exact s.afterPins.applyReset_inv
  · exact hi.afterPins.beginRun hs _
  · exact hi.afterPins
  · exact hi.afterPins.decodeEffect hs ((s.memRead_ok_iff _ _).1 h0).2 ((s.memRead_ok_iff _ _).1 h1).2

/-- Settles O34: reset's registers are those `applyReset` writes, and `launch` touches only the environment's side. -/
theorem resetMeetsTheInvariant : Obligations.ResetMeetsTheInvariant :=
  ⟨State.reset.applyReset_inv, fun bytes => (State.reset.launch bytes).applyReset_inv⟩

/-- Settles O31: one step changes none of the four, so no run does. -/
theorem romsAndInputNeverChange : Obligations.RomsAndInputNeverChange := by
  intro k s t h
  refine steps_keep (P := fun u => u.mnRom = s.mnRom ∧ u.regRom = s.regRom ∧ u.honorD = s.honorD ∧ u.input = s.input)
    (fun u v hu huv => ?_) k ⟨rfl, rfl, rfl, rfl⟩ h
  obtain ⟨hm, hr, hh, hi⟩ := step_config huv
  simpa [hm, hr, hh, hi] using hu

/-! ### The cursor's width -/

/-- A length presented now is one of those scheduled, or 0. -/
theorem State.pinsNow_inLen_le {s : State} {m : Nat} (h : ∀ p ∈ s.pins, p.inLen ≤ m) : s.pinsNow.inLen ≤ m := by
  rcases hp : s.pins with _ | ⟨p, rest⟩
  · simp [State.pinsNow, hp]
  · rw [State.pinsNow_cons hp]
    exact h p (by simp [hp])

/-- A line count whose chunks end within the width's largest offset needs one bit less (R29). -/
theorem lines_fit {lines cursorBits : Nat} (h : 2 * lines ≤ Config.maxLen cursorBits) :
    lines < 2 ^ (cursorBits - 1) := by
  unfold Config.maxLen at h
  cases cursorBits with
  | zero => omega
  | succ n =>
    rw [Nat.pow_succ] at h
    have := Nat.two_pow_pos n
    simp only [Nat.add_sub_cancel]
    omega

/-- Sampling the signals only takes one off the list. -/
theorem State.FitsWidth.afterPins {s : State} {cursorBits : Nat} (h : s.FitsWidth cursorBits) :
    s.afterPins.FitsWidth cursorBits := by
  obtain ⟨hc, hlen, ho, hl, hp⟩ := h
  exact ⟨hc, hlen, ho, hl, fun p hmem => hp p (List.mem_of_mem_tail hmem)⟩

/-- Reset puts 0 into every register, which fits every width (R102). -/
theorem State.FitsWidth.applyReset {s : State} {cursorBits : Nat} (h : s.FitsWidth cursorBits) :
    s.applyReset.FitsWidth cursorBits := by
  obtain ⟨-, -, -, -, hp⟩ := h
  exact ⟨Nat.zero_le _, Nat.zero_le _, Nat.zero_le _, Nat.two_pow_pos _, hp⟩

/-- A start with a length that fits keeps every register within the width (R83). -/
theorem State.FitsWidth.beginRun {s : State} {cursorBits n : Nat} (h : s.FitsWidth cursorBits)
    (hn : n ≤ Config.maxLen cursorBits) : (s.beginRun n).FitsWidth cursorBits := by
  obtain ⟨hc, hlen, ho, hl, hp⟩ := h
  rcases s.beginRun_cases n with ⟨-, e⟩ | ⟨-, e⟩ | ⟨-, -, e⟩ <;> rw [e]
  · exact ⟨hc, hn, Nat.le_trans (Nat.sub_le n 1) hn, hl, hp⟩
  · exact ⟨hc, Nat.zero_le _, ho, hl, hp⟩
  · exact ⟨Nat.zero_le _, hn, ho, Nat.two_pow_pos _, hp⟩

/-- A decode step keeps every register within the width: in `RUNNING` a whole chunk lies ahead of the cursor (R84). -/
theorem State.FitsWidth.decodeEffect {s : State} {cursorBits : Nat} (h : s.FitsWidth cursorBits) (hs : s.seq = .running)
    (hpos : s.Positioned) (r : InstrRecord) : (s.decodeEffect r).FitsWidth cursorBits := by
  obtain ⟨hc, hlen, ho, hl, hp⟩ := h
  obtain ⟨hcl, hlt, heven⟩ := (State.positioned_running hs).1 hpos
  have hnext : s.cursor + 2 ≤ Config.maxLen cursorBits := by omega
  rcases hd : decode1 s.mnRom s.regRom s.honorD r with cause | line
  · rw [State.decodeEffect_error hd]
    exact ⟨hc, hlen, hc, hl, hp⟩
  · rw [State.decodeEffect_ok hd]
    have hlines : s.lines + 1 < 2 ^ (cursorBits - 1) := lines_fit (by omega)
    exact ⟨by simpa using hnext, by simpa using hlen, by simpa using ho, by simpa using hlines, by simpa using hp⟩

/-- Settles O37: each of the step's four cases keeps the width; a start samples a length that fits. -/
theorem everyCursorWidthIsKept : Obligations.EveryCursorWidthIsKept := by
  intro cursorBits s t hi hf h
  have ⟨_, _, _, _, hp⟩ := hf
  rcases step_cases h with ⟨-, rfl⟩ | ⟨-, -, -, rfl⟩ | ⟨-, -, rfl⟩ | ⟨-, hs, b0, b1, -, -, rfl⟩
  · exact (State.FitsWidth.afterPins hf).applyReset
  · exact (State.FitsWidth.afterPins hf).beginRun (State.pinsNow_inLen_le hp)
  · exact State.FitsWidth.afterPins hf
  · exact (State.FitsWidth.afterPins hf).decodeEffect hs hi.afterPins.positioned _

/-! ### The line of `MOV` on the ROMs of the block -/

/-- The name the table of R24 gives a width flag and a selector. -/
def registerName (w : BitVec 1) (selector : Selector) : Text := (registerAt registerTable (regKey w selector)).getD []

/-- `MOV`'s line for two operand names (R77, R78). -/
def movLine (op1 op2 : Text) : Text := ascii ['m', 'o', 'v', ' '] ++ op1 ++ ascii [',', ' '] ++ op2

/-- The table of R24 has an entry at every key. -/
theorem registerAt_registerTable (w : BitVec 1) (selector : Selector) :
    registerAt registerTable (regKey w selector) = some (registerName w selector) := by
  revert w selector; decide

/-- R73's key as a position in the table's names. -/
theorem registerTable_names_getElem? (w : BitVec 1) (selector : Selector) :
    (registerTable.toList.map (·.getD []))[selector.toNat + 8 * w.toNat]? = some (registerName w selector) := by
  revert w selector; decide

@[simp] theorem lower_registerName (w : BitVec 1) (selector : Selector) :
    lower (registerName w selector) = registerName w selector := by
  revert w selector; decide

@[simp] theorem length_registerName (w : BitVec 1) (selector : Selector) : (registerName w selector).length = 2 := by
  revert w selector; decide

/-- No two keys of the table have one name (R23). -/
theorem registerName_inj {w w' : BitVec 1} {sel sel' : Selector} (h : registerName w sel = registerName w' sel') :
    w = w' ∧ sel = sel' := by
  revert w w' sel sel'; decide

/-- A line tells its two names when their length is known. -/
theorem movLine_inj {op1 op2 op1' op2' : Text} (hlen : op1.length = op1'.length)
    (h : movLine op1 op2 = movLine op1' op2') : op1 = op1' ∧ op2 = op2' := by
  simp only [movLine, List.append_assoc, List.append_cancel_left_eq] at h
  obtain ⟨h1, h2⟩ := List.append_inj h hlen
  exact ⟨h1, List.append_cancel_left h2⟩

/-- The line of every `MOV` record on the ROMs of R21 and R24 with the default operand order (R76, R77). -/
theorem decode1_blockRoms {r : InstrRecord} (h : r.opCode = Config.movOpcode) :
    decode1 mnemonicTable registerTable false r = .ok (movLine (registerName r.w r.rm) (registerName r.w r.reg)) := by
  have hm : mnemonicAt mnemonicTable r.opCode = some (ascii ['m', 'o', 'v']) := by rw [h]; rfl
  have hmov : lower (ascii ['m', 'o', 'v']) ++ [0x20#8] = ascii ['m', 'o', 'v', ' '] := by decide
  have hsep : ascii [',', ' '] = [0x2C#8, 0x20#8] := by decide
  rw [decode1_ok false hm (registerAt_registerTable ..) (registerAt_registerTable ..), format_eq]
  simp [operandOrder, movLine, ← hmov, hsep]

/-- Settles O13: `MOV`'s effect on the ROMs of the block is to append the line of `decode1_blockRoms`. -/
theorem movLineByTheRegisterTable : Obligations.MovLineByTheRegisterTable := by
  intro d w mod reg rm s ⟨hmn, hrr⟩ hd
  have hline := decode1_blockRoms (r := (Instr.mov d w mod reg rm).record) rfl
  rw [← hmn, ← hrr, ← hd] at hline
  refine ⟨registerName w rm, registerName w reg, s.appendLine (movLine (registerName w rm) (registerName w reg)),
    registerTable_names_getElem? w rm, registerTable_names_getElem? w reg, ?_, ?_, ?_, ?_⟩
  · rw [exec_eq, State.decodeEffect_ok hline]; rfl
  · exact State.appendLine_text ..
  · exact State.appendLine_lines ..
  · exact State.appendLine_cursor ..

/-- Settles O19: the line is cut into two names of 2 bytes, and each name has one key. -/
theorem lineDeterminesItsOperands : Obligations.LineDeterminesItsOperands := by
  intro r r' line ho ho' hl hl'
  rw [decode1_blockRoms ho] at hl
  rw [decode1_blockRoms ho'] at hl'
  obtain ⟨hrm, hreg⟩ := movLine_inj (by simp) (Except.ok.inj (hl.trans hl'.symm))
  obtain ⟨hw, hrm⟩ := registerName_inj hrm
  exact ⟨hw, hrm, (registerName_inj hreg).2⟩

/-! ### The reset values, the register table and the output signals -/

/-- Settles O21, by evaluating the check on the table's 16 strings. -/
theorem registerTableMeetsItsConstraints : Obligations.RegisterTableMeetsItsConstraints := by
  unfold Obligations.RegisterTableMeetsItsConstraints
  decide

/-- The mnemonic ROM has one entry (R21). -/
theorem mnemonicAt_mnemonicTable (op : OpCode) :
    mnemonicAt mnemonicTable op = if op = 0b100010#6 then some (ascii ['m', 'o', 'v']) else none := by
  revert op; decide

/-- Settles O22: beside the mnemonic ROM, every field of `State.reset` is the value written. -/
theorem resetValues : Obligations.ResetValues :=
  ⟨mnemonicAt_mnemonicTable, rfl, rfl, rfl, rfl, rfl, rfl, rfl, rfl⟩

/-- The four causes have four codes (R30). -/
theorem FaultCause.code_inj (c c' : FaultCause) : c.code = c'.code ↔ c = c' := by
  cases c <;> cases c' <;> decide

theorem State.textValid_iff (s : State) : s.textValid = true ↔ s.seq = .done := beq_iff_eq

theorem State.busy_iff (s : State) : s.busy = true ↔ s.seq = .running := beq_iff_eq

theorem State.faulted_iff (s : State) : s.faulted = true ↔ s.seq = .fault := beq_iff_eq

/-- The consumer is given `TEXT` in `DONE` and nothing elsewhere (R28, R107). -/
theorem State.result_eq_some_iff (s : State) (t : Text) : s.result = some t ↔ s.seq = .done ∧ t = s.text := by
  rw [State.result, Option.ite_none_right_eq_some, State.textValid_iff, Option.some.injEq, eq_comm (a := s.text)]

/-- A chunk's two offsets are presented in `RUNNING` without `reset` (R34, R45). -/
theorem State.inAddrs_running {s : State} (hs : s.seq = .running) (hr : s.pinsNow.reset = false) :
    s.inAddrs = [s.cursor, s.cursor + 1] := by
  simp [State.inAddrs, (s.busy_iff).2 hs, hr]

/-- No offset is presented outside `RUNNING`, nor in a step that resets (R41, R102). -/
theorem State.inAddrs_eq_nil {s : State} (h : s.seq ≠ .running ∨ s.pinsNow.reset = true) : s.inAddrs = [] := by
  rcases h with hs | hr
  · have hb : s.busy = false := Bool.eq_false_iff.2 fun hb => hs (s.busy_iff.1 hb)
    simp [State.inAddrs, hb]
  · simp [State.inAddrs, hr]

/-- Settles O32: each output is the register, or the test of `STATE`, that its own lemma says. -/
theorem outputSignals : Obligations.OutputSignals := fun s =>
  ⟨rfl, rfl, rfl, s.textValid_iff, s.busy_iff, s.faulted_iff,
    FaultCause.code_inj _ (.none), FaultCause.code_inj _ (.unknownOpcode),
    FaultCause.code_inj _ (.unknownRegister), FaultCause.code_inj _ (.malformedLength),
    s.result_eq_some_iff, State.inAddrs_running, State.inAddrs_eq_nil⟩

end Sys2Proof.Machine

/-! ### The decoder is the encoder's inverse, on chunks, streams and table words -/

namespace Sys2Proof

/-- A chunk decodes to an instruction exactly when it is that instruction's encoding (R49, R70). -/
theorem decodeChunk_ok_iff_encode (byte0 byte1 : Byte) (i : Instr) :
    decodeChunk byte0 byte1 = .ok i ↔ encode i = (byte0, byte1) := by
  rw [decodeChunk_ok_iff]
  constructor <;> intro h
  · rw [encode, h, encodeRecord_fieldExtract]
  · have hrec : fieldExtract (encode i).1 (encode i).2 = i.record := fieldExtract_encodeRecord i.record
    rw [← hrec, h]

/-- A chunk decodes exactly when its opcode is `MOV`'s (R53, R54). -/
theorem exists_decodeChunk_ok_iff (byte0 byte1 : Byte) :
    (∃ i, decodeChunk byte0 byte1 = .ok i) ↔ (fieldExtract byte0 byte1).opCode = Config.movOpcode := by
  constructor
  · rintro ⟨i, h⟩
    rw [← (decodeChunk_ok_iff _ _ _).1 h, Instr.record_opCode]
  · intro h
    rcases hd : decodeChunk byte0 byte1 with e | i
    · exact absurd h ((decodeChunk_error_iff _ _ _).1 hd).1
    · exact ⟨i, rfl⟩

@[simp] theorem decodeChunk_encode (i : Instr) : decodeChunk (encode i).1 (encode i).2 = .ok i :=
  (decodeChunk_ok_iff_encode _ _ i).2 rfl

/-- A stream of at least one chunk decodes when its first chunk and the rest do (R38). -/
theorem decodeStream_cons_ok_iff (byte0 byte1 : Byte) (rest : List Byte) (is : List Instr) :
    decodeStream (byte0 :: byte1 :: rest) = .ok is ↔
      ∃ i js, decodeChunk byte0 byte1 = .ok i ∧ decodeStream rest = .ok js ∧ is = i :: js := by
  rcases hc : decodeChunk byte0 byte1 with e | i
  · simp [decodeStream_cons_error hc]
  · rw [decodeStream_cons_ok hc]
    rcases decodeStream rest with e | js <;> simp [eq_comm]

/-- Settles O8, by induction on the list: each instruction's two bytes are the first chunk. -/
theorem decodeStreamOfEncodeStream : Obligations.DecodeStreamOfEncodeStream := by
  rintro is -
  induction is with
  | nil => rfl
  | cons i is ih => exact (decodeStream_cons_ok_iff ..).2 ⟨i, is, decodeChunk_encode i, ih, rfl⟩

/-- Settles O9, by the decoder's own recursion: each chunk that decodes is the encoding of its instruction. -/
theorem encodeStreamOfDecodeStream : Obligations.EncodeStreamOfDecodeStream
  | [], _, h => by cases h; rfl
  | [_], _, h => by cases h
  | byte0 :: byte1 :: rest, is, h => by
    obtain ⟨i, js, hi, hjs, rfl⟩ := (decodeStream_cons_ok_iff ..).1 h
    rw [encodeStream, (decodeChunk_ok_iff_encode ..).1 hi, encodeStreamOfDecodeStream rest js hjs]

/-- A table word decodes as its chunk does (log 14). -/
theorem decodeTableWord_eq_some_iff (nbits w : Nat) (i : Instr) :
    decodeTableWord nbits w = some i ↔
      decodeChunk (chunkOfTableWord nbits w).1 (chunkOfTableWord nbits w).2 = .ok i := by
  rw [decodeTableWord, decodeBytes]
  rcases decodeChunk (chunkOfTableWord nbits w).1 (chunkOfTableWord nbits w).2 with e | j <;> simp

/-- No bit of a 16-bit table word is cut off: byte 0 is its high byte and byte 1 its low one (R39). -/
theorem chunkOfTableWord_sixteen {w : Nat} (hw : w < 65536) :
    chunkOfTableWord 16 w = (BitVec.ofNat 8 (w / 256), BitVec.ofNat 8 w) := by
  have hmod : w % 2 ^ min 16 16 = w := Nat.mod_eq_of_lt hw
  simp only [chunkOfTableWord, hmod]

/-- The two bytes of a 16-bit table word, put together, are the word (R39). -/
theorem chunkOfTableWord_append_toNat {w : Nat} (hw : w < 65536) :
    ((chunkOfTableWord 16 w).1 ++ (chunkOfTableWord 16 w).2).toNat = w := by
  rw [chunkOfTableWord_sixteen hw, BitVec.toNat_append, ← Nat.shiftLeft_add_eq_or_of_lt (BitVec.isLt _),
    Nat.shiftLeft_eq, BitVec.toNat_ofNat, BitVec.toNat_ofNat]
  omega

/-- The opcode of a 16-bit table word is its bits 15 to 10 (R39, R49). -/
theorem chunkOfTableWord_opCode_toNat {w : Nat} (hw : w < 65536) :
    (fieldExtract (chunkOfTableWord 16 w).1 (chunkOfTableWord 16 w).2).opCode.toNat = w / 1024 := by
  rw [chunkOfTableWord_sixteen hw, fieldExtract, BitVec.extractLsb'_toNat, BitVec.toNat_ofNat, Nat.shiftRight_eq_div_pow]
  omega

/-- A 16-bit table word decodes to some instruction exactly when its bits 15 to 10 are `MOV`'s opcode (R53). -/
theorem exists_decodeTableWord_iff {w : Nat} (hw : w < 65536) :
    (∃ i, decodeTableWord 16 w = some i) ↔ w / 1024 = 34 := by
  simp only [decodeTableWord_eq_some_iff]
  rw [exists_decodeChunk_ok_iff, ← BitVec.toNat_inj, chunkOfTableWord_opCode_toNat hw]
  rfl

/-- Settles O10: the word decodes by its opcode bits, and the decoded instruction's chunk is the word's. -/
theorem tableWordDecodesToItsInstruction : Obligations.TableWordDecodesToItsInstruction := by
  intro w hw
  refine ⟨fun hop => ?_, fun hop => ?_⟩
  · obtain ⟨i, hi⟩ := (exists_decodeTableWord_iff hw).2 hop
    have henc := (decodeChunk_ok_iff_encode ..).1 ((decodeTableWord_eq_some_iff ..).1 hi)
    refine ⟨i, hi, ?_⟩
    rw [encodeWord, henc, chunkOfTableWord_append_toNat hw]
  · exact Option.eq_none_iff_forall_ne_some.2 fun i hi => hop ((exists_decodeTableWord_iff hw).1 ⟨i, hi⟩)

end Sys2Proof

/-! ### When a step answers: the bytes of the chunk are there -/

namespace Sys2Proof.Machine

/-- The two bytes of the chunk at the cursor can be read (R35, R38). -/
def State.ChunkAtHand (s : State) : Prop :=
  s.cursor + 1 < s.len ∧ (s.input.read s.cursor).isSome = true ∧ (s.input.read (s.cursor + 1)).isSome = true

/-- A chunk is at hand when both of its reads answer; the second read's bound covers the first. -/
theorem State.chunkAtHand_iff (s : State) :
    s.ChunkAtHand ↔ ∃ byte0 byte1, s.memRead s.cursor = .ok byte0 ∧ s.memRead (s.cursor + 1) = .ok byte1 := by
  simp only [State.ChunkAtHand, State.memRead_ok_iff, Option.isSome_iff_exists]
  constructor
  · rintro ⟨hlt, ⟨byte0, h0⟩, ⟨byte1, h1⟩⟩
    exact ⟨byte0, byte1, ⟨by omega, h0⟩, hlt, h1⟩
  · rintro ⟨byte0, byte1, ⟨-, h0⟩, hlt, h1⟩
    exact ⟨hlt, ⟨byte0, h0⟩, ⟨byte1, h1⟩⟩

/-- A step takes a next state exactly when it reads no chunk or the chunk is at hand (R84). -/
theorem exists_step_next_iff (s : State) :
    (∃ t, step s = .next t) ↔ (s.seq = .running → s.pinsNow.reset = false → s.ChunkAtHand) := by
  rw [State.chunkAtHand_iff]
  constructor
  · rintro ⟨t, h⟩ hs hr
    rcases step_cases h with ⟨hr', -⟩ | ⟨-, hs', -⟩ | ⟨-, hs', -⟩ | ⟨-, -, byte0, byte1, h0, h1, -⟩
    · simp [hr] at hr'
    · simp [hs] at hs'
    · simp [hs] at hs'
    · exact ⟨byte0, byte1, h0, h1⟩
  · intro h
    rcases hr : s.pinsNow.reset with _ | _
    · rcases hs : s.seq with _ | _ | _ | _
      case idle =>
        rcases ht : s.pinsNow.start with _ | _
        · exact ⟨_, step_quiet hr (.inr (.inr ⟨hs, ht⟩))⟩
        · exact ⟨_, step_start hr hs ht⟩
      case running =>
        obtain ⟨byte0, byte1, h0, h1⟩ := h hs hr
        exact ⟨_, step_running_ok hr hs h0 h1⟩
      case done => exact ⟨_, step_quiet hr (.inl hs)⟩
      case fault => exact ⟨_, step_quiet hr (.inr (.inl hs))⟩
    · exact ⟨_, step_reset hr⟩

/-- A step that takes no next state stops with a fault. -/
theorem exists_step_fault_iff (s : State) : (∃ f, step s = .fault f) ↔ ¬ ∃ t, step s = .next t := by
  rcases h : step s with t | f | r
  · simp
  · simp
  · exact absurd h (step_not_refused s r)

/-- Settles O29: a step stops exactly when it takes no next state, and never refuses. -/
theorem stepStopsOnlyOnAMissingByte : Obligations.StepStopsOnlyOnAMissingByte := by
  intro s
  refine ⟨?_, step_not_refused s⟩
  rw [exists_step_fault_iff, exists_step_next_iff]
  simp only [Classical.not_imp, State.ChunkAtHand]

/-! ### The environment's requirements -/

/-- In `RUNNING` a whole chunk lies below `L`, so an environment that has met R104 has supplied it (R27, R84). -/
theorem State.BootMet.chunkAtHand {s : State} (h : s.BootMet) (hpos : s.Positioned) (hs : s.seq = .running) :
    s.ChunkAtHand := by
  obtain ⟨hc, hlt, heven⟩ := (State.positioned_running hs).1 hpos
  have hnext : s.cursor + 1 < s.len := by omega
  exact ⟨hnext, h.1 hs _ hlt, h.1 hs _ hnext⟩

/-- A start asserted now is one of those scheduled, so its bytes are there (R104). -/
theorem State.BootMet.readable_now {s : State} (h : s.BootMet) (ht : s.pinsNow.start = true) :
    s.Readable s.pinsNow.inLen := by
  rcases hp : s.pins with _ | ⟨p, rest⟩
  · simp [State.pinsNow, hp] at ht
  · rw [State.pinsNow_cons hp] at ht ⊢
    exact h.2 p (by simp [hp]) ht

/-- Sampling the signals only takes one off the list. -/
theorem State.BootMet.afterPins {s : State} (h : s.BootMet) : s.afterPins.BootMet :=
  ⟨h.1, fun p hmem => h.2 p (List.mem_of_mem_tail hmem)⟩

/-- Reset leaves no run going on, and the environment's side as it is (R102). -/
theorem State.BootMet.applyReset {s : State} (h : s.BootMet) : s.applyReset.BootMet :=
  ⟨fun hs => by simp at hs, h.2⟩

/-- A start with its bytes supplied begins a run whose bytes are there (R83, R104). -/
theorem State.BootMet.beginRun {s : State} {n : Nat} (h : s.BootMet) (hn : s.Readable n) :
    (s.beginRun n).BootMet := by
  rcases s.beginRun_cases n with ⟨-, e⟩ | ⟨-, e⟩ | ⟨-, -, e⟩ <;> rw [e]
  · exact ⟨fun hs => by simp at hs, h.2⟩
  · exact ⟨fun hs => by simp at hs, h.2⟩
  · exact ⟨fun _ => hn, h.2⟩

/-- A decode step leaves the length, the input space and the signals of the run going on (R84). -/
theorem State.BootMet.decodeEffect {s : State} (h : s.BootMet) (hs : s.seq = .running) (r : InstrRecord) :
    (s.decodeEffect r).BootMet :=
  ⟨fun _ => by simpa [State.Readable] using h.1 hs, by simpa [State.Readable] using h.2⟩

/-- Every step keeps the environment's requirements met: a start needs those of its own length. -/
theorem State.BootMet.step {s t : State} (h : s.BootMet) (hst : step s = .next t) : t.BootMet := by
  rcases step_cases hst with ⟨-, rfl⟩ | ⟨-, -, ht, rfl⟩ | ⟨-, -, rfl⟩ | ⟨-, hs, b0, b1, -, -, rfl⟩
  · exact h.afterPins.applyReset
  · exact h.afterPins.beginRun (h.readable_now ht)
  · exact h.afterPins
  · exact h.afterPins.decodeEffect hs _

/-- Settles O36: in `RUNNING` the chunk is at hand, elsewhere (the idle steps of log 3 among them) no byte is read. -/
theorem bootedBlockNeverStops : Obligations.BootedBlockNeverStops := by
  intro s hi hb
  obtain ⟨t, ht⟩ := (exists_step_next_iff s).2 fun hs _ => hb.chunkAtHand hi.positioned hs
  exact ⟨t, ht, hb.step ht⟩

/-! ### The bytes of `TEXT` -/

/-- A text of the bytes the block may put into `TEXT` (R37). -/
abbrev IsOutputText (t : Text) : Prop := ∀ b ∈ t, isOutputByte b = true

/-- The mnemonic of R21 is made of output bytes once lowered (R57). -/
theorem mnemonicTable_outputText {op : OpCode} {m : Text} (h : mnemonicAt mnemonicTable op = some m) :
    IsOutputText (lower m) := by
  rw [mnemonicAt_mnemonicTable, Option.ite_none_right_eq_some] at h
  obtain ⟨-, hm⟩ := h
  cases hm
  decide

/-- Every name of the table of R24 is made of output bytes once lowered (R57). -/
theorem registerTable_outputText {key : RegKey} {name : Text} (h : registerAt registerTable key = some name) :
    IsOutputText (lower name) := by
  have hall : ∀ key, ∀ name ∈ registerAt registerTable key, IsOutputText (lower name) := by decide
  exact hall key name h

/-- The printed order is that of the names, or the reverse (R76). -/
theorem operandOrder_cases (honorD : Bool) (d : BitVec 1) (nameRm nameReg : Text) :
    operandOrder honorD d nameRm nameReg = (nameRm, nameReg) ∨
      operandOrder honorD d nameRm nameReg = (nameReg, nameRm) := by
  unfold operandOrder
  split <;> simp

/-- Between its three parts the formatter puts spaces and a comma only (R78). -/
theorem format_outputText {m op1 op2 : Text} (hm : IsOutputText (lower m)) (h1 : IsOutputText (lower op1))
    (h2 : IsOutputText (lower op2)) : IsOutputText (format ⟨m, op1, op2⟩) := by
  have hspace : isOutputByte 0x20#8 = true := by decide
  have hcomma : isOutputByte 0x2C#8 = true := by decide
  rw [format_eq]
  simp only [IsOutputText, List.forall_mem_append, List.forall_mem_cons]
  exact ⟨⟨hm, hspace, h1⟩, hcomma, hspace, h2⟩

/-- Every line rendered from the ROMs of the block is made of output bytes, whatever `HONOR_D` is (R37, R57). -/
theorem decode1_outputText {honorD : Bool} {r : InstrRecord} {line : Text}
    (h : decode1 mnemonicTable registerTable honorD r = .ok line) : IsOutputText line := by
  unfold decode1 at h
  rcases resolve_cases mnemonicTable registerTable honorD r with
    ⟨-, e⟩ | ⟨-, -, e⟩ | ⟨m, nameRm, nameReg, hm, hrm, hreg, e⟩ <;> rw [e] at h
  · cases h
  · cases h
  · cases h
    have hm := mnemonicTable_outputText hm
    have hrm := registerTable_outputText hrm
    have hreg := registerTable_outputText hreg
    rcases operandOrder_cases honorD r.d nameRm nameReg with e | e <;> rw [e]
    · exact format_outputText hm hrm hreg
    · exact format_outputText hm hreg hrm

/-- The separator and a line of output bytes keep `TEXT` made of them (R84, R86). -/
theorem State.appendLine_outputText {s : State} {line : Text} (hs : IsOutputText s.text) (hl : IsOutputText line) :
    IsOutputText (s.appendLine line).text := by
  have hsep : IsOutputText [Config.lineSep] := by decide
  rw [State.appendLine_text, IsOutputText, List.forall_mem_append]
  refine ⟨?_, hl⟩
  split
  · exact List.forall_mem_append.2 ⟨hs, hsep⟩
  · exact hs

/-- On the ROMs of the block a decode step appends output bytes or leaves `TEXT` (R37, R84). -/
theorem State.decodeEffect_outputText {s : State} (hroms : s.RomsIntact) (hs : IsOutputText s.text) (r : InstrRecord) :
    IsOutputText (s.decodeEffect r).text := by
  obtain ⟨hmn, hrr⟩ := hroms
  rcases hd : decode1 s.mnRom s.regRom s.honorD r with cause | line
  · rw [State.decodeEffect_error hd]
    exact hs
  · rw [State.decodeEffect_ok hd]
    rw [hmn, hrr] at hd
    exact State.appendLine_outputText hs (decode1_outputText hd)

/-- A start leaves `TEXT` or empties it (R83). -/
theorem State.beginRun_text (s : State) (n : Nat) : (s.beginRun n).text = s.text ∨ (s.beginRun n).text = [] := by
  rcases s.beginRun_cases n with ⟨-, e⟩ | ⟨-, e⟩ | ⟨-, -, e⟩ <;> simp [e]

/-- Settles O38: of the step's four cases only the decode step adds bytes, and it adds output bytes. -/
theorem textStaysLowerCaseAscii : Obligations.TextStaysLowerCaseAscii := by
  intro s t ⟨hmn, hrr⟩ htext h
  obtain ⟨hmn', hrr', -, -⟩ := step_config h
  refine ⟨⟨hmn'.trans hmn, hrr'.trans hrr⟩, ?_⟩
  rcases step_cases h with ⟨-, rfl⟩ | ⟨-, -, -, rfl⟩ | ⟨-, -, rfl⟩ | ⟨-, -, b0, b1, -, -, rfl⟩
  · simp
  · rcases s.afterPins.beginRun_text s.pinsNow.inLen with e | e <;> rw [e]
    · exact htext
    · simp
  · exact htext
  · exact State.decodeEffect_outputText (s := s.afterPins) ⟨hmn, hrr⟩ htext _

/-! ### The instruction a step runs -/

/-- Settles O27: both are the effect of the chunk's record. -/
theorem stepRunsTheDecodedInstruction : Obligations.StepRunsTheDecodedInstruction := by
  intro s byte0 byte1 i hs hr h0 h1 hi
  rw [step_running_ok hr hs h0 h1, exec_eq, (decodeChunk_ok_iff ..).1 hi]
  rfl

/-- Placing a chunk takes `reset` off the coming step (log 12). -/
@[simp] theorem State.loadChunk_reset (s : State) (byte0 byte1 : Byte) :
    (s.loadChunk byte0 byte1).pinsNow.reset = false := by
  rcases hp : s.pins with _ | ⟨p, rest⟩ <;> simp [State.loadChunk, State.pinsNow, hp]

/-- Placing a chunk touches the coming step's signals only (log 12). -/
@[simp] theorem State.loadChunk_pins_tail (s : State) (byte0 byte1 : Byte) :
    (s.loadChunk byte0 byte1).pins.tail = s.pins.tail := by
  rcases hp : s.pins with _ | ⟨p, rest⟩ <;> simp [State.loadChunk, hp]

/-- The chunk placed at the cursor is read back there. -/
theorem State.loadChunk_memRead (s : State) (byte0 byte1 : Byte) :
    (s.loadChunk byte0 byte1).memRead s.cursor = .ok byte0 ∧
      (s.loadChunk byte0 byte1).memRead (s.cursor + 1) = .ok byte1 := by
  simp only [State.memRead_ok_iff, State.loadChunk_len, State.loadChunk_input]
  refine ⟨⟨by omega, ?_⟩, by omega, Memory.read_write_same ..⟩
  rw [Memory.read_write_other _ _ (by omega), Memory.read_write_same]

/-- Settles O43: the placed chunk is at hand in `RUNNING`, so the step runs what it decodes to. -/
theorem fetchWordIsRunNext : Obligations.FetchWordIsRunNext := by
  intro s w i _ hi
  obtain ⟨h0, h1⟩ := s.loadChunk_memRead (chunkOfTableWord 16 w).1 (chunkOfTableWord 16 w).2
  rw [State.withFetchWord, stepRunsTheDecodedInstruction _ _ _ i rfl (State.loadChunk_reset ..) h0 h1
    ((decodeTableWord_eq_some_iff ..).1 hi), State.loadChunk_pins_tail]

end Sys2Proof.Machine

/-! ### The opcode map: which chunks name an instruction -/

namespace Sys2Proof

/-- Settles O7, by evaluating the decoder on the five words. -/
theorem wordsWrittenOutDecode : Obligations.WordsWrittenOutDecode := ⟨rfl, rfl, rfl, rfl, rfl⟩

/-- Byte 0 is its opcode, `d` and `w`, the opcode on top (R49, R70). -/
theorem byte0_eq_fields (byte0 byte1 : Byte) :
    byte0 = (fieldExtract byte0 byte1).opCode ++ (fieldExtract byte0 byte1).d ++ (fieldExtract byte0 byte1).w :=
  congrArg Prod.fst (encodeRecord_fieldExtract byte0 byte1).symm

/-- The opcode mask keeps the six opcode bits of byte 0 and clears `d` and `w` (R53). -/
theorem opcodeMask_fields (op : OpCode) (d w : BitVec 1) : (op ++ d ++ w) &&& 0xFC#8 = op ++ 0#1 ++ 0#1 := by
  have hmask : 0xFC#8 = BitVec.allOnes 6 ++ 0#1 ++ 0#1 := by decide
  rw [hmask, BitVec.and_append, BitVec.and_append, BitVec.and_allOnes, BitVec.and_zero, BitVec.and_zero]

/-- A chunk's opcode is `MOV`'s exactly when byte 0 passes the 8-bit mask test (R53). -/
theorem opCode_eq_mov_iff_byte0_masked (byte0 byte1 : Byte) :
    (fieldExtract byte0 byte1).opCode = Config.movOpcode ↔ byte0 &&& 0xFC#8 = 0x88#8 := by
  have hmov : 0x88#8 = Config.movOpcode ++ 0#1 ++ 0#1 := by decide
  have hmask : byte0 &&& 0xFC#8 = (fieldExtract byte0 byte1).opCode ++ 0#1 ++ 0#1 :=
    (congrArg (· &&& 0xFC#8) (byte0_eq_fields byte0 byte1)).trans (opcodeMask_fields ..)
  rw [hmask, hmov, BitVec.append_left_inj, BitVec.append_left_inj]

/-- The mask test on the word `IW` is the mask test on byte 0 (R39, R53). -/
theorem word_masked_iff_byte0_masked (byte0 byte1 : Byte) :
    (byte0 ++ byte1) &&& 0xFC00#16 = 0x8800#16 ↔ byte0 &&& 0xFC#8 = 0x88#8 := by
  have hmov : 0x8800#16 = 0x88#8 ++ 0#8 := by decide
  rw [opcodeMask_append, hmov, BitVec.append_left_inj]

/-- Byte 0 of a `MOV` as a number: `d` and `w` count up from 0x88 (R53). -/
theorem movByte0_eq_ofNat : ∀ d w : BitVec 1,
    Config.movOpcode ++ d ++ w = BitVec.ofNat 8 (0x88 + 2 * d.toNat + w.toNat) := by decide

/-- The four values of a `MOV`'s byte 0 (R53). -/
theorem movByte0_cases : ∀ d w : BitVec 1,
    Config.movOpcode ++ d ++ w = 0x88#8 ∨ Config.movOpcode ++ d ++ w = 0x89#8 ∨
      Config.movOpcode ++ d ++ w = 0x8A#8 ∨ Config.movOpcode ++ d ++ w = 0x8B#8 := by decide

/-- A chunk's opcode is `MOV`'s exactly when byte 0 is one of 0x88 to 0x8B (R53). -/
theorem opCode_eq_mov_iff_byte0_listed (byte0 byte1 : Byte) :
    (fieldExtract byte0 byte1).opCode = Config.movOpcode ↔
      byte0 = 0x88#8 ∨ byte0 = 0x89#8 ∨ byte0 = 0x8A#8 ∨ byte0 = 0x8B#8 := by
  constructor
  · intro hop
    rw [byte0_eq_fields byte0 byte1, hop]
    exact movByte0_cases ..
  · rintro (rfl | rfl | rfl | rfl) <;> rfl

/-- Settles O6: each test says that the opcode is `MOV`'s, and the encoding of what is decoded gives byte 0. -/
theorem opcodeMapHasOneEntry : Obligations.OpcodeMapHasOneEntry := by
  intro byte0 byte1
  rw [exists_decodeChunk_ok_iff]
  refine ⟨?_, opCode_eq_mov_iff_byte0_masked .., opCode_eq_mov_iff_byte0_listed .., ?_⟩
  · rw [word_masked_iff_byte0_masked, opCode_eq_mov_iff_byte0_masked byte0 byte1]
  · intro d w mod reg rm h
    have hbyte0 : Config.movOpcode ++ d ++ w = byte0 := congrArg Prod.fst ((decodeChunk_ok_iff_encode ..).1 h)
    rw [← hbyte0, movByte0_eq_ofNat]

end Sys2Proof

/-! ### The opcode is checked before the registers -/

namespace Sys2Proof.Machine

/-- A record whose opcode has no mnemonic faults with `UNKNOWN_OPCODE`, whatever the register-name ROM holds (R71, R97). -/
theorem decode1_of_no_mnemonic {mnRom : Vector (Option Text) 64} {r : InstrRecord} (h : mnemonicAt mnRom r.opCode = none)
    (regRom : Vector (Option Text) 16) (honorD : Bool) : decode1 mnRom regRom honorD r = .error .unknownOpcode := by
  simp only [decode1, resolve, h]

/-- The mnemonic ROM of the block has no entry but `MOV`'s (R21). -/
theorem mnemonicAt_mnemonicTable_eq_none_iff (op : OpCode) :
    mnemonicAt mnemonicTable op = none ↔ op ≠ 0b100010#6 := by
  rw [mnemonicAt_mnemonicTable]
  split <;> simp [*]

/-- Settles O28: the step is the effect of the chunk's record, and that effect is the fault entry. -/
theorem illegalOpcodeEntersUnknownOpcode : Obligations.IllegalOpcodeEntersUnknownOpcode := by
  refine ⟨fun s byte0 byte1 hs hr h0 h1 hnone => ?_, mnemonicAt_mnemonicTable_eq_none_iff⟩
  have hfault := decode1_of_no_mnemonic (r := fieldExtract byte0 byte1) hnone s.regRom s.honorD
  rw [step_running_ok hr hs h0 h1, State.decodeEffect_error (s := s.afterPins) hfault]
  rfl

/-! ### The fields the datapath does not read -/

/-- Beside its opcode, which a fault records, a record acts only by what the lookup answers for it (R80, R84). -/
theorem State.decodeEffect_congr {s : State} {r r' : InstrRecord} (hop : r.opCode = r'.opCode)
    (hres : resolve s.mnRom s.regRom s.honorD r = resolve s.mnRom s.regRom s.honorD r') :
    s.decodeEffect r = s.decodeEffect r' := by
  simp only [State.decodeEffect, decode1, hop, hres]

/-- Instructions whose records the lookup answers alike have one meaning. -/
theorem exec_congr {i i' : Instr} {s : State}
    (hres : resolve s.mnRom s.regRom s.honorD i.record = resolve s.mnRom s.regRom s.honorD i'.record) :
    exec i s = exec i' s := by
  rw [exec_eq, exec_eq, State.decodeEffect_congr (i.record_opCode.trans i'.record_opCode.symm) hres]

/-- The lookup reads no `mod` (R55, R67). -/
theorem resolve_withMod (mnRom : Vector (Option Text) 64) (regRom : Vector (Option Text) 16) (honorD : Bool)
    (r : InstrRecord) (mod : BitVec 2) :
    resolve mnRom regRom honorD { r with mod } = resolve mnRom regRom honorD r := rfl

/-- Without `HONOR_D` the lookup reads no `d` (R76). -/
theorem resolve_withD_of_not_honorD (mnRom : Vector (Option Text) 64) (regRom : Vector (Option Text) 16)
    (r : InstrRecord) (d : BitVec 1) :
    resolve mnRom regRom false { r with d } = resolve mnRom regRom false r := rfl

/-- Under `HONOR_D`, `d = 1` is `d = 0` with the selectors exchanged (R76). -/
theorem resolve_exchange_of_honorD (mnRom : Vector (Option Text) 64) (regRom : Vector (Option Text) 16)
    (r : InstrRecord) :
    resolve mnRom regRom true { r with d := 1#1 } =
      resolve mnRom regRom true { r with d := 0#1, reg := r.rm, rm := r.reg } := by
  rcases hrm : registerAt regRom (regKey r.w r.rm) with _ | nameRm <;>
    rcases hreg : registerAt regRom (regKey r.w r.reg) with _ | nameReg <;>
    simp [resolve, operandOrder, hrm, hreg]

/-- Settles O15: `exec` is the effect of the record, and the lookups of the two records answer the same. -/
theorem modIsNeverConsultedAndDOnlyWithHonorD : Obligations.ModIsNeverConsultedAndDOnlyWithHonorD := by
  intro d d' w mod mod' reg rm s
  refine ⟨exec_congr (resolve_withMod ..).symm, fun hd => exec_congr ?_, fun hd => exec_congr ?_⟩ <;> rw [hd]
  · exact (resolve_withD_of_not_honorD ..).symm
  · exact resolve_exchange_of_honorD _ _ (Instr.mov d w mod reg rm).record

/-! ### Every line is lower case -/

/-- Lowering leaves no capital (R11). -/
theorem lowerByte_not_capital (b : Byte) : ¬ (0x41#8 ≤ lowerByte b ∧ lowerByte b ≤ 0x5A#8) := by
  unfold lowerByte
  split
  · bv_omega
  · assumption

/-- A line the datapath answers is a formatted one (R78, R80). -/
theorem decode1_ok_format {mnRom : Vector (Option Text) 64} {regRom : Vector (Option Text) 16} {honorD : Bool}
    {r : InstrRecord} {line : Text} (h : decode1 mnRom regRom honorD r = .ok line) : ∃ resolved, line = format resolved := by
  unfold decode1 at h
  rcases hr : resolve mnRom regRom honorD r with cause | resolved <;> rw [hr] at h <;> cases h
  exact ⟨resolved, rfl⟩

/-- Settles O18: a line is a lowered text, and lowering leaves no capital. -/
theorem noLineHoldsACapital : Obligations.NoLineHoldsACapital := by
  intro mnRom regRom honorD r line h b hb
  obtain ⟨resolved, rfl⟩ := decode1_ok_format h
  obtain ⟨c, -, rfl⟩ := List.mem_map.1 hb
  exact lowerByte_not_capital c

end Sys2Proof.Machine

/-! ### The bit-field extractor as a unit -/

namespace Sys2Proof.Machine

/-- Inside the contract the unit answers the masked shift (R59). -/
theorem bfxUnit_in_contract {b s e : Nat} (hb : b < 256) (he : e < s) (hs : s ≤ 8) :
    bfxUnit b s e = .next ((b >>> e) &&& (2 ^ (s - e) - 1)) := by
  rw [bfxUnit, bfx_in_contract hb he hs]

/-- Outside the contract the unit refuses (R60). -/
theorem bfxUnit_out_of_contract {b s e : Nat} (h : ¬ (b < 256 ∧ e < s ∧ s ≤ 8)) :
    bfxUnit b s e = .refused .bfxOutOfContract := by
  rw [bfxUnit, bfx_out_of_contract h]

/-- On a byte, the unit answers the wires of the byte from `e` up to `s` (R63). -/
theorem bfxUnit_wired (b : Byte) {s e : Nat} (he : e < s) (hs : s ≤ 8) :
    bfxUnit b.toNat s e = .next (b.extractLsb' e (s - e)).toNat := by
  rw [bfxUnit, bfx_wired b he hs]

/-- A one-bit extraction answers the binary digit of the byte at that place (R59). -/
theorem bfxUnit_one_bit {b i : Nat} (hb : b < 256) (hi : i < 8) : bfxUnit b (i + 1) i = .next (b / 2 ^ i % 2) := by
  rw [bfxUnit_in_contract hb i.lt_add_one hi, Nat.add_sub_cancel_left, Nat.and_two_pow_sub_one_eq_mod,
    Nat.shiftRight_eq_div_pow, Nat.pow_one]

/-- The bits of the masked shift are the bits from `e` on, as many as the mask is wide (R59). -/
theorem testBit_masked_shift (b e width i : Nat) :
    ((b >>> e) &&& (2 ^ width - 1)).testBit i = (decide (i < width) && b.testBit (e + i)) := by
  rw [Nat.testBit_and, Nat.testBit_two_pow_sub_one, Nat.testBit_shiftRight, Bool.and_comm]

/-- The weighted sum of the lowest `n` binary digits of a number is the number modulo `2 ^ n` (R62). -/
theorem sum_weighted_binary_digits (b n : Nat) :
    ((List.range n).map fun i => 2 ^ i * (b / 2 ^ i % 2)).sum = b % 2 ^ n := by
  induction n with
  | zero => simp [Nat.mod_one]
  | succ n ih =>
    rw [List.range_succ, List.map_append, List.sum_append, ih, List.map_singleton, List.sum_singleton,
      Nat.mod_pow_succ]

/-- Settles O1: the unit answers the masked shift, whose bits are read off, and refuses elsewhere. -/
theorem extractorIsolatesItsBits : Obligations.ExtractorIsolatesItsBits := fun _ s e =>
  ⟨fun hb he hs => ⟨_, bfxUnit_in_contract hb he hs, rfl, testBit_masked_shift _ e (s - e)⟩, bfxUnit_out_of_contract⟩

/-- Settles O3: each call answers a binary digit, and the eight digits of a byte sum to the byte. -/
theorem extractorReconstructsTheByte : Obligations.ExtractorReconstructsTheByte := fun b hb =>
  ⟨fun i => b / 2 ^ i % 2, fun _ hi => bfxUnit_one_bit hb hi,
    (sum_weighted_binary_digits b 8).trans (Nat.mod_eq_of_lt hb)⟩

/-- Settles O2: the value is a conjunction with the mask, hence at most the mask. -/
theorem extractorRange : Obligations.ExtractorRange := fun _ _ _ hb he hs =>
  ⟨_, bfxUnit_in_contract hb he hs, Nat.and_le_right⟩

/-- Settles O4: each field is the wires of its byte at its constant pair, which is what the unit answers there. -/
theorem fieldsAreTheSixExtractions : Obligations.FieldsAreTheSixExtractions := by
  intro byte0 byte1
  refine ⟨bfxUnit_wired byte0 ?_ ?_, bfxUnit_wired byte0 ?_ ?_, bfxUnit_wired byte0 ?_ ?_,
    bfxUnit_wired byte1 ?_ ?_, bfxUnit_wired byte1 ?_ ?_, bfxUnit_wired byte1 ?_ ?_⟩ <;> decide

end Sys2Proof.Machine

/-! ### The field extractor as a bijection -/

namespace Sys2Proof

/-- Byte 1 is its `mod`, `reg` and `r_m`, `mod` on top (R49, R70). -/
theorem byte1_eq_fields (byte0 byte1 : Byte) :
    byte1 = (fieldExtract byte0 byte1).mod ++ (fieldExtract byte0 byte1).reg ++ (fieldExtract byte0 byte1).rm :=
  congrArg Prod.snd (encodeRecord_fieldExtract byte0 byte1).symm

/-- Settles O5: `encodeRecord` is the inverse on both sides, and the worked example is evaluated. -/
theorem fieldExtractIsABijection : Obligations.FieldExtractIsABijection :=
  ⟨fun byte0 byte1 => ⟨_, rfl, byte0_eq_fields byte0 byte1, byte1_eq_fields byte0 byte1⟩,
    fieldExtract_encodeRecord, by decide⟩

end Sys2Proof

/-! ### Register keys, the line of `MOV` and its effect, for any contents of the ROMs -/

namespace Sys2Proof.Machine

/-- Settles O11: a concatenation is the high part shifted by the low part's width, and fits the sum of the widths. -/
theorem registerKeyIsSelectorPlusEightW : Obligations.RegisterKeyIsSelectorPlusEightW := by
  intro w selector
  refine ⟨?_, Nat.le_of_lt_succ (regKey w selector).isLt⟩
  rw [regKey, BitVec.toNat_append, ← Nat.shiftLeft_add_eq_or_of_lt selector.isLt, Nat.shiftLeft_eq, Nat.add_comm]

/-- The operand printed first (R76). -/
theorem operandOrder_fst (honorD : Bool) (d : BitVec 1) (nameRm nameReg : Text) :
    (operandOrder honorD d nameRm nameReg).1 = if honorD = true ∧ d = 1#1 then nameReg else nameRm :=
  apply_ite Prod.fst _ _ _

/-- The operand printed second (R76). -/
theorem operandOrder_snd (honorD : Bool) (d : BitVec 1) (nameRm nameReg : Text) :
    (operandOrder honorD d nameRm nameReg).2 = if honorD = true ∧ d = 1#1 then nameRm else nameReg :=
  apply_ite Prod.snd _ _ _

/-- The line of R77's pseudocode, for a record whose three entries are present (R76 to R78). -/
theorem decode1_ok_line {mnRom : Vector (Option Text) 64} {regRom : Vector (Option Text) 16} {r : InstrRecord}
    {mnemonic nameRm nameReg : Text} (honorD : Bool) (hm : mnemonicAt mnRom r.opCode = some mnemonic)
    (hrm : registerAt regRom (regKey r.w r.rm) = some nameRm)
    (hreg : registerAt regRom (regKey r.w r.reg) = some nameReg) :
    decode1 mnRom regRom honorD r = .ok
      (lower (mnemonic ++ [0x20#8] ++ (if honorD = true ∧ r.d = 1#1 then nameReg else nameRm) ++
        [0x2C#8, 0x20#8] ++ (if honorD = true ∧ r.d = 1#1 then nameRm else nameReg))) := by
  rw [decode1_ok honorD hm hrm hreg, operandOrder_fst, operandOrder_snd]
  rfl

/-- Settles O44: the chunk's record has `MOV`'s opcode and the two keys of R73. -/
theorem movRendersItsLine : Obligations.MovRendersItsLine := by
  intro mnRom regRom honorD byte0 byte1 mnemonic nameRm nameReg hop hm hrm hreg
  rw [← hop] at hm
  exact decode1_ok_line (r := fieldExtract byte0 byte1) honorD hm hrm hreg

/-- The whole next state of a rendering: text, line count, cursor and `STATE` are written, nothing else (R84). -/
theorem State.appendLine_eq (s : State) (line : Text) :
    s.appendLine line = { s with
      text := (if 0 < s.lines then s.text ++ [Config.lineSep] else s.text) ++ line
      lines := s.lines + 1
      cursor := s.cursor + 2
      seq := if s.cursor + 2 = s.len then .done else s.seq } := by
  unfold State.appendLine State.separate
  split <;> rfl

/-- Settles O12: `MOV`'s effect is to append the line of `decode1_ok_line`. -/
theorem movAppendsItsLine : Obligations.MovAppendsItsLine := by
  intro d w mod reg rm s mnemonic nameRm nameReg hm hrm hreg
  have hline := decode1_ok_line (r := (Instr.mov d w mod reg rm).record) s.honorD hm hrm hreg
  rw [exec_eq, State.decodeEffect_ok hline, State.appendLine_eq]
  rfl

/-! ### An absent register entry -/

/-- A record with a mnemonic and an absent register entry faults with `UNKNOWN_REGISTER` (R75). -/
theorem decode1_of_no_register {mnRom : Vector (Option Text) 64} {regRom : Vector (Option Text) 16} {r : InstrRecord}
    (honorD : Bool) (hm : mnemonicAt mnRom r.opCode ≠ none)
    (h : registerAt regRom (regKey r.w r.rm) = none ∨ registerAt regRom (regKey r.w r.reg) = none) :
    decode1 mnRom regRom honorD r = .error .unknownRegister := by
  rcases resolve_cases mnRom regRom honorD r with ⟨hm', -⟩ | ⟨-, -, hres⟩ | ⟨m, a, b, -, hrm, hreg, -⟩
  · exact absurd hm' hm
  · simp only [decode1, hres]
  · simp [hrm, hreg] at h

/-- Settles O14: the effect of such a record is the fault entry, and the table of R24 has a name at each key. -/
theorem absentRegisterEntersUnknownRegister : Obligations.AbsentRegisterEntersUnknownRegister := by
  refine ⟨fun d w mod reg rm s mnemonic hm h => ?_, by decide⟩
  have hpresent : mnemonicAt s.mnRom Config.movOpcode ≠ none := Option.ne_none_iff_exists'.2 ⟨mnemonic, hm⟩
  have hfault := decode1_of_no_register (r := (Instr.mov d w mod reg rm).record) s.honorD hpresent h
  rw [exec_eq, State.decodeEffect_error hfault]
  rfl

/-! ### The frame of an instruction -/

/-- The effect of a record is a fault entry at the cursor, or one more line (R84). -/
theorem State.decodeEffect_cases (s : State) (r : InstrRecord) :
    (∃ cause, s.decodeEffect r = s.raiseFault cause s.cursor r.opCode) ∨
      ∃ line, s.decodeEffect r = s.appendLine line := by
  rcases hd : decode1 s.mnRom s.regRom s.honorD r with cause | line
  · exact .inl ⟨cause, State.decodeEffect_error hd⟩
  · exact .inr ⟨line, State.decodeEffect_ok hd⟩

/-- Settles O16: an instruction is the effect of its record, which touches neither the ROMs nor the environment's side,
and is a rendering or a fault entry. -/
theorem instructionFrame : Obligations.InstructionFrame := by
  intro i s t h
  rw [exec_eq] at h
  cases h
  have hread (a : Nat) : (s.decodeEffect i.record).input.read a = s.input.read a := by rw [State.decodeEffect_input]
  refine ⟨State.decodeEffect_mnRom .., State.decodeEffect_regRom .., State.decodeEffect_len ..,
    State.decodeEffect_honorD .., State.decodeEffect_pins .., hread,
    fun a => State.memRead_congr (State.decodeEffect_len ..) (hread a), ?_⟩
  rcases s.decodeEffect_cases i.record with ⟨cause, e⟩ | ⟨line, e⟩ <;> rw [e]
  · exact .inr ⟨rfl, rfl, rfl, rfl⟩
  · rw [State.appendLine_eq]
    refine .inl ⟨rfl, rfl, rfl, rfl, rfl, ?_⟩
    dsimp only
    split
    · exact .inr rfl
    · exact .inl rfl

/-! ### The shape of a line on the ROMs of the block -/

/-- Whatever `HONOR_D` is, the lookup answers what it answers without it, for the record or for the one with the selectors
exchanged (R76). -/
theorem resolve_eq_without_honorD (mnRom : Vector (Option Text) 64) (regRom : Vector (Option Text) 16) (honorD : Bool)
    (r : InstrRecord) :
    resolve mnRom regRom honorD r = resolve mnRom regRom false r ∨
      resolve mnRom regRom honorD r = resolve mnRom regRom false { r with reg := r.rm, rm := r.reg } := by
  by_cases hswap : honorD = true ∧ r.d = 1#1
  · obtain ⟨rfl, hd⟩ := hswap
    right
    calc resolve mnRom regRom true r
      _ = resolve mnRom regRom true { r with d := 1#1 } := by rw [← hd]
      _ = resolve mnRom regRom true { r with d := 0#1, reg := r.rm, rm := r.reg } := resolve_exchange_of_honorD ..
      _ = resolve mnRom regRom false { r with reg := r.rm, rm := r.reg } := by simp [resolve, operandOrder]
  · left
    simp [resolve, operandOrder, hswap]

/-- Under both values of `HONOR_D` a `MOV` record prints two names of one width (R77). -/
theorem exists_decode1_blockRoms (honorD : Bool) {r : InstrRecord} (h : r.opCode = Config.movOpcode) :
    ∃ sel sel', decode1 mnemonicTable registerTable honorD r =
      .ok (movLine (registerName r.w sel) (registerName r.w sel')) := by
  rcases resolve_eq_without_honorD mnemonicTable registerTable honorD r with e | e
  · exact ⟨r.rm, r.reg, by rw [decode1, e]; exact decode1_blockRoms h⟩
  · exact ⟨r.reg, r.rm, by rw [decode1, e]; exact decode1_blockRoms (r := { r with reg := r.rm, rm := r.reg }) h⟩

theorem lineSep_not_mem_registerName (w : BitVec 1) (selector : Selector) : 0x0A#8 ∉ registerName w selector := by
  revert w selector; decide

/-- The fixed parts of a line stand around its two names (R78). -/
theorem movLine_shape {op1 op2 : Text} (h1 : op1.length = 2) :
    (movLine op1 op2).take 4 = ascii ['m', 'o', 'v', ' '] ∧
      (movLine op1 op2).drop 6 = ascii [',', ' '] ++ (movLine op1 op2).drop 8 := by
  have hop2 : (movLine op1 op2).drop 8 = op2 := List.drop_left' (by simp [h1, ascii])
  rw [hop2]
  constructor
  · rw [movLine, List.append_assoc, List.append_assoc]
    exact List.take_left' rfl
  · rw [movLine, List.append_assoc]
    exact List.drop_left' (by simp [h1, ascii])

/-- Settles O17: the line is `mov`, a space, two names of 2 bytes and `, ` between them. -/
theorem everyLineIsTenBytes : Obligations.EveryLineIsTenBytes := by
  intro honorD r hop
  obtain ⟨sel, sel', hline⟩ := exists_decode1_blockRoms honorD hop
  obtain ⟨htake, hdrop⟩ := movLine_shape (op2 := registerName r.w sel') (length_registerName r.w sel)
  refine ⟨_, hline, ?_, htake, hdrop, ?_⟩
  · simp [movLine, ascii]
  · have hmov : 0x0A#8 ∉ ascii ['m', 'o', 'v', ' '] := by decide
    have hcomma : 0x0A#8 ∉ ascii [',', ' '] := by decide
    simp only [movLine, List.mem_append, not_or]
    exact ⟨⟨⟨hmov, lineSep_not_mem_registerName _ sel⟩, hcomma⟩, lineSep_not_mem_registerName _ sel'⟩

/-! ### The case in which the ROMs store their strings -/

/-- The formatter reads its three parts up to case (R78, R79). -/
theorem format_congr_lower {r r' : Resolved} (hm : lower r.mnemonic = lower r'.mnemonic)
    (h1 : lower r.op1 = lower r'.op1) (h2 : lower r.op2 = lower r'.op2) : format r = format r' := by
  rw [format_eq, format_eq, hm, h1, h2]

/-- Operands that agree up to case do so in the printed order (R76, R79). -/
theorem operandOrder_congr_lower (honorD : Bool) (d : BitVec 1) {a b a' b' : Text} (ha : lower a = lower a')
    (hb : lower b = lower b') :
    lower (operandOrder honorD d a b).1 = lower (operandOrder honorD d a' b').1 ∧
      lower (operandOrder honorD d a b).2 = lower (operandOrder honorD d a' b').2 := by
  unfold operandOrder
  split
  · exact ⟨hb, ha⟩
  · exact ⟨ha, hb⟩

/-- Of two entries that agree up to case, both are absent or neither is. -/
theorem eq_none_iff_of_map_lower {o o' : Option Text} (h : o'.map lower = o.map lower) : o' = none ↔ o = none := by
  rw [← Option.map_eq_none_iff (f := lower), h, Option.map_eq_none_iff]

/-- `Decode1` reads the ROMs up to case (R79, R80). -/
theorem decode1_congr_lower {mnRom mnRom' : Vector (Option Text) 64} {regRom regRom' : Vector (Option Text) 16}
    (hmn : ∀ op, (mnemonicAt mnRom' op).map lower = (mnemonicAt mnRom op).map lower)
    (hrr : ∀ key, (registerAt regRom' key).map lower = (registerAt regRom key).map lower) (honorD : Bool)
    (r : InstrRecord) : decode1 mnRom' regRom' honorD r = decode1 mnRom regRom honorD r := by
  have hnm := eq_none_iff_of_map_lower (hmn r.opCode)
  have hnrm := eq_none_iff_of_map_lower (hrr (regKey r.w r.rm))
  have hnreg := eq_none_iff_of_map_lower (hrr (regKey r.w r.reg))
  rcases resolve_cases mnRom regRom honorD r with ⟨hm, -⟩ | ⟨hm, habsent, -⟩ | ⟨m, a, b, hm, hrm, hreg, -⟩
  · rw [decode1_of_no_mnemonic hm, decode1_of_no_mnemonic (hnm.2 hm)]
  · rw [decode1_of_no_register honorD hm habsent,
      decode1_of_no_register honorD (mt hnm.1 hm) (habsent.imp hnrm.2 hnreg.2)]
  · obtain ⟨m', hm', hml⟩ := Option.map_eq_some_iff.1 ((hmn r.opCode).trans (congrArg _ hm))
    obtain ⟨a', hrm', hal⟩ := Option.map_eq_some_iff.1 ((hrr (regKey r.w r.rm)).trans (congrArg _ hrm))
    obtain ⟨b', hreg', hbl⟩ := Option.map_eq_some_iff.1 ((hrr (regKey r.w r.reg)).trans (congrArg _ hreg))
    obtain ⟨h1, h2⟩ := operandOrder_congr_lower honorD r.d hal hbl
    rw [decode1_ok honorD hm hrm hreg, decode1_ok honorD hm' hrm' hreg']
    exact congrArg Except.ok (format_congr_lower hml h1 h2)

/-- ROMs of which `Decode1` answers the same give a record the same effect, but for the ROMs. -/
theorem State.decodeEffect_withRoms {s : State} {mnRom : Vector (Option Text) 64} {regRom : Vector (Option Text) 16}
    {r : InstrRecord} (h : decode1 mnRom regRom s.honorD r = decode1 s.mnRom s.regRom s.honorD r) :
    ({ s with mnRom, regRom } : State).decodeEffect r = { s.decodeEffect r with mnRom, regRom } := by
  rcases hd : decode1 s.mnRom s.regRom s.honorD r with cause | line
  · rw [State.decodeEffect_error hd, State.decodeEffect_error (s := { s with mnRom, regRom }) (h.trans hd)]
    rfl
  · rw [State.decodeEffect_ok hd, State.decodeEffect_ok (s := { s with mnRom, regRom }) (h.trans hd),
      State.appendLine_eq, State.appendLine_eq]

/-- Settles O20: the instruction's record has one effect under both pairs of ROMs. -/
theorem storedCaseIsUnobservable : Obligations.StoredCaseIsUnobservable := by
  intro i s mnRom regRom hmn hrr
  refine ⟨_, exec_eq i s, ?_⟩
  rw [exec_eq, State.decodeEffect_withRoms (decode1_congr_lower hmn hrr s.honorD i.record)]

/-! ### The bytes a step reads -/

/-- A start reads no byte (R83). -/
theorem State.beginRun_withInput (s : State) (m : Memory) (n : Nat) :
    ({ s with input := m } : State).beginRun n = { s.beginRun n with input := m } := by
  unfold State.beginRun
  split
  · rfl
  · split <;> rfl

/-- Settles O33: of the step's four cases only the decode step reads bytes, and it reads the two of its chunk. -/
theorem stepReadsOnlyItsOwnChunk : Obligations.StepReadsOnlyItsOwnChunk := by
  intro s t m hm0 hm1 h
  rcases step_cases h with ⟨hr, rfl⟩ | ⟨hr, hs, ht, rfl⟩ | ⟨hr, hs, rfl⟩ | ⟨hr, hs, byte0, byte1, h0, h1, rfl⟩
  · exact step_reset (s := { s with input := m }) hr
  · rw [← State.beginRun_withInput]
    exact step_start (s := { s with input := m }) hr hs ht
  · exact step_quiet (s := { s with input := m }) hr hs
  · rw [← State.memRead_congr (s := { s with input := m }) (t := s) rfl hm0] at h0
    rw [← State.memRead_congr (s := { s with input := m }) (t := s) rfl hm1] at h1
    rw [← State.decodeEffect_withInput]
    exact step_running_ok (s := { s with input := m }) hr hs h0 h1

end Sys2Proof.Machine

/-! ### Start, and what the signals do outside `IDLE` -/

namespace Sys2Proof.Machine

/-- Settles O24: the step is the start's effect, and each end of the length check excludes the other two. -/
theorem startChecksTheLength : Obligations.StartChecksTheLength := by
  intro s p rest hp hr ht hs
  have hstep : step s = .next (({ s with pins := rest } : State).beginRun p.inLen) := by
    have hnow := State.pinsNow_cons hp
    rw [step_start (by rw [hnow, hr]) hs (by rw [hnow, ht]), hnow, State.afterPins_cons hp]
  rw [hstep]
  rcases ({ s with pins := rest } : State).beginRun_cases p.inLen with
    ⟨hodd, e⟩ | ⟨hzero, e⟩ | ⟨heven, hpos, e⟩ <;> rw [e]
  · exact ⟨fun _ => rfl, by omega, by omega⟩
  · exact ⟨by omega, fun _ => rfl, by omega⟩
  · exact ⟨by omega, by omega, fun _ _ => rfl⟩

/-- Outside `IDLE` a step reads no signal but `reset` (R82, R84, R85, R87, R102). -/
theorem step_outside_idle {s : State} (h : s.seq ≠ .idle) :
    step s = if s.pinsNow.reset = true then .next s.afterPins.applyReset
      else if s.seq = .running then decodeStep s.afterPins else .next s.afterPins := by
  rcases hr : s.pinsNow.reset with _ | _
  · rcases hs : s.seq with _ | _ | _ | _
    case idle => exact absurd hs h
    case running => simp [step_running hr hs]
    case done => simp [step_quiet hr (.inl hs)]
    case fault => simp [step_quiet hr (.inr (.inl hs))]
  · simp [step_reset hr]

/-- Settles O25: `step_outside_idle` at both signals, which differ in nothing that it reads. -/
theorem startAndLengthIgnoredOutsideIdle : Obligations.StartAndLengthIgnoredOutsideIdle := by
  intro s p p' rest hs hreset
  rw [step_outside_idle (s := { s with pins := p :: rest }) hs,
    step_outside_idle (s := { s with pins := p' :: rest }) hs,
    State.pinsNow_cons (p := p) rfl, State.pinsNow_cons (p := p') rfl, hreset]
  rfl

/-! ### `DONE` and `FAULT` stay until `reset` -/

/-- Sampling the signals only takes one off the list. -/
theorem State.NoResetAhead.afterPins {s : State} (h : s.NoResetAhead) : s.afterPins.NoResetAhead :=
  fun p hmem => h p (List.mem_of_mem_tail hmem)

/-- In `DONE` and `FAULT` steps without `reset` do nothing but consume their signals (R85, R87; log 3). -/
theorem steps_ended (k : Nat) {s : State} (hs : s.seq = .done ∨ s.seq = .fault) (hr : s.NoResetAhead) :
    steps k s = .next { s with pins := s.pins.drop k } := by
  induction k generalizing s with
  | zero => rfl
  | succ k ih =>
    rw [steps_succ k (step_quiet hr.now (hs.imp_right .inl)), ih (s := s.afterPins) hs hr.afterPins, State.afterPins_pins,
      List.drop_tail]
    rfl

/-- Outside `DONE` nothing is delivered (R28, R107). -/
theorem State.result_eq_none {s : State} (h : s.seq ≠ .done) : s.result = none :=
  Option.eq_none_iff_forall_ne_some.2 fun t ht => h ((s.result_eq_some_iff t).1 ht).1

/-- Settles O30: the state stays by `steps_ended`, and with it what the outputs show. -/
theorem doneAndFaultStayUntilReset : Obligations.DoneAndFaultStayUntilReset := by
  intro k s hs hr
  refine ⟨_, steps_ended k hs hr, rfl, fun hdone => ?_, fun hfault => ⟨?_, ?_⟩⟩
  · exact (State.result_eq_some_iff _ _).2 ⟨hdone, rfl⟩
  · exact State.result_eq_none (by simp [hfault])
  · exact (State.faulted_iff _).2 hfault

/-! ### Every run ends -/

/-- In `RUNNING` a step without `reset` ends the run or moves the cursor one chunk on in it (R84). -/
theorem step_running_cases {s t : State} (hs : s.seq = .running) (hr : s.pinsNow.reset = false) (h : step s = .next t) :
    (t.seq = .done ∨ t.seq = .fault) ∨ (t.seq = .running ∧ t.cursor = s.cursor + 2 ∧ t.len = s.len) := by
  obtain ⟨byte0, byte1, -, -, rfl⟩ := decodeStep_next ((step_running hr hs).symm.trans h)
  rcases s.afterPins.decodeEffect_cases (fieldExtract byte0 byte1) with ⟨cause, e⟩ | ⟨line, e⟩ <;> rw [e]
  · exact .inl (.inr rfl)
  · by_cases hend : s.cursor + 2 = s.len
    · exact .inl (.inl (by simp [hend]))
    · exact .inr ⟨by simp [hend, hs], by simp, by simp⟩

/-- No step schedules a signal. -/
theorem step_pins {s t : State} (h : step s = .next t) : t.pins = s.pins.tail := by
  rcases step_cases h with ⟨-, rfl⟩ | ⟨-, -, -, rfl⟩ | ⟨-, -, rfl⟩ | ⟨-, -, b0, b1, -, -, rfl⟩
  · rfl
  · rcases s.afterPins.beginRun_cases s.pinsNow.inLen with ⟨-, e⟩ | ⟨-, e⟩ | ⟨-, -, e⟩ <;> rw [e] <;> rfl
  · rfl
  · simp

/-- Every step leaves no `reset` scheduled where none was. -/
theorem State.NoResetAhead.step {s t : State} (h : s.NoResetAhead) (hst : step s = .next t) : t.NoResetAhead := by
  rw [State.NoResetAhead, step_pins hst]
  exact h.afterPins

/-- Settles O39, by induction on the number of chunks left: while the run goes on, each step takes one of them. -/
theorem everyRunEnds : Obligations.EveryRunEnds := by
  intro s hi hb hr hs
  induction hn : (s.len - s.cursor) / 2 using Nat.strongRecOn generalizing s with
  | ind n ih =>
    obtain ⟨hcl, hlt, heven⟩ := (State.positioned_running hs).1 hi.positioned
    obtain ⟨t, hst, hbt⟩ := bootedBlockNeverStops s hi hb
    rcases step_running_cases hs hr.now hst with hend | ⟨hrun, hc, hl⟩
    · exact ⟨1, t, by omega, steps_succ 0 hst, hend⟩
    · obtain ⟨k, u, hk, hsteps, hend⟩ :=
        ih _ (by omega) t (stepKeepsTheInvariant s t hi hst) hbt (hr.step hst) hrun rfl
      exact ⟨k + 1, u, by omega, (steps_succ k hst).trans hsteps, hend⟩

/-! ### The block computes `Run(IN, L)` -/

/-- The block between two chunks of a run with no signal scheduled: the lines `printed` are rendered, and the chunks
`rest` lie ahead of the cursor; the run is over exactly when there are none (R38, R84, R86). -/
structure State.BetweenChunks (s : State) (printed : List Text) (rest : List (Byte × Byte)) : Prop where
  pins   : s.pins = []
  text   : s.text = joinLines printed
  lines  : s.lines = printed.length
  cursor : s.cursor = 2 * printed.length
  len    : s.len = s.cursor + 2 * rest.length
  seq    : s.seq = if rest = [] then .done else .running
  input  : ∀ j c, rest[j]? = some c →
    s.input.read (s.cursor + 2 * j) = some c.1 ∧ s.input.read (s.cursor + 2 * j + 1) = some c.2

/-- With no signal scheduled there is none to consume. -/
theorem State.afterPins_of_no_pins {s : State} (h : s.pins = []) : s.afterPins = s := by
  cases s
  simp_all [State.afterPins]

/-- With a chunk ahead, the step is the effect of its record. -/
theorem State.BetweenChunks.step {s : State} {printed : List Text} {c : Byte × Byte} {rest : List (Byte × Byte)}
    (h : s.BetweenChunks printed (c :: rest)) : step s = .next (s.decodeEffect (fieldExtract c.1 c.2)) := by
  obtain ⟨h0, h1⟩ := h.input 0 c rfl
  have hlen := h.len
  rw [List.length_cons] at hlen
  rw [step_running_ok (by simp [State.pinsNow, h.pins]) (by simp [h.seq]) ((s.memRead_ok_iff _ _).2 ⟨by omega, h0⟩)
    ((s.memRead_ok_iff _ _).2 ⟨by omega, h1⟩), State.afterPins_of_no_pins h.pins]

/-- Appending the line of the next chunk leads to the place after it. -/
theorem State.BetweenChunks.appendLine {s : State} {printed : List Text} {c : Byte × Byte} {rest : List (Byte × Byte)}
    (h : s.BetweenChunks printed (c :: rest)) (line : Text) :
    (s.appendLine line).BetweenChunks (printed ++ [line]) rest := by
  have hlen := h.len
  rw [List.length_cons] at hlen
  have hend : s.cursor + 2 = s.len ↔ rest = [] := by rw [← List.length_eq_zero_iff]; omega
  constructor
  case pins => rw [State.appendLine_pins, h.pins]
  case text => rw [State.appendLine_text, joinLines_snoc, h.lines, h.text]
  case lines => simp [h.lines]
  case cursor => simp [h.cursor]; omega
  case len => simp; omega
  case seq => simp [hend, h.seq]
  case input =>
    intro j d hd
    have hnext := h.input (j + 1) d hd
    rw [State.appendLine_input, State.appendLine_cursor, Nat.add_assoc s.cursor, Nat.add_comm 2]
    exact hnext

/-- From between two chunks, one step for each chunk ahead shows what the loop of `Run` answers from there (R88). -/
theorem State.BetweenChunks.steps {s : State} {printed : List Text} {rest : List (Byte × Byte)}
    (h : s.BetweenChunks printed rest) : ∃ t, steps rest.length s = .next t ∧
      t.observe = some (runChunks s.mnRom s.regRom s.honorD printed.length printed rest) := by
  induction rest generalizing s printed with
  | nil => exact ⟨s, rfl, by simp [State.observe, runChunks, h.seq, h.text]⟩
  | cons c rest ih =>
    have hstep := h.step
    rcases hd : decode1 s.mnRom s.regRom s.honorD (fieldExtract c.1 c.2) with cause | line
    · rw [State.decodeEffect_error hd] at hstep
      refine ⟨_, (steps_succ _ hstep).trans (steps_quiet _ (.inr rfl) h.pins), ?_⟩
      simp [State.observe, runChunks, hd, h.cursor]
    · rw [State.decodeEffect_ok hd] at hstep
      obtain ⟨t, ht, hobs⟩ := ih (h.appendLine line)
      refine ⟨t, (steps_succ _ hstep).trans ht, ?_⟩
      simpa [runChunks, hd] using hobs

/-- The step after boot is the start, with the stream's length sampled (R82, R104). -/
theorem step_launch {s : State} (hs : s.seq = .idle) (bytes : List Byte) :
    step (s.launch bytes) = .next ((s.launch bytes).afterPins.beginRun bytes.length) :=
  step_start (s := s.launch bytes) rfl hs rfl

/-- A start on a stream of even length stands before its first chunk (R83). -/
theorem State.launch_betweenChunks {s : State} (hs : s.seq = .idle) (hpos : s.Positioned) {bytes : List Byte}
    (heven : bytes.length % 2 = 0) :
    ((s.launch bytes).afterPins.beginRun bytes.length).BetweenChunks [] (chunksOf bytes) := by
  obtain ⟨hc, hl, ht⟩ := (State.positioned_idle hs).1 hpos
  have hcount := chunksOf_length bytes
  have hread : ∀ j c, (chunksOf bytes)[j]? = some c → (Memory.ofBytes 0 bytes).read (0 + 2 * j) = some c.1 ∧
      (Memory.ofBytes 0 bytes).read (0 + 2 * j + 1) = some c.2 := by
    intro j c hj
    simpa using chunksOf_getElem bytes hj
  rcases (s.launch bytes).afterPins.beginRun_cases bytes.length with ⟨hodd, -⟩ | ⟨hzero, e⟩ | ⟨-, hlt, e⟩
  · omega
  · have hnil : chunksOf bytes = [] := List.length_eq_zero_iff.1 (by omega)
    rw [e, hnil]
    exact ⟨rfl, ht, hl, hc, hc.symm, rfl, by simp⟩
  · have hne : chunksOf bytes ≠ [] := List.ne_nil_of_length_pos (by omega)
    rw [e]
    exact ⟨rfl, rfl, rfl, rfl, by dsimp only; omega, by simp [hne], hread⟩

/-- A start on a length that is odd is a fault entry (R83, R94). -/
theorem State.beginRun_of_odd (s : State) {n : Nat} (h : n % 2 = 1) :
    s.beginRun n = ({ s with len := n } : State).raiseFault .malformedLength (n - 1) 0#6 := by
  rcases s.beginRun_cases n with ⟨-, e⟩ | ⟨hn, -⟩ | ⟨hn, -, -⟩
  · exact e
  · omega
  · omega

/-- Settles O40: an odd length faults in the start step, any other stands before its first chunk after it. -/
theorem blockComputesRun : Obligations.BlockComputesRun := by
  intro mnRom regRom honorD bytes
  rw [Nat.add_comm, steps_succ _ (step_launch rfl bytes)]
  by_cases hodd : bytes.length % 2 = 1
  · rw [State.beginRun_of_odd _ hodd]
    exact ⟨_, steps_quiet _ (.inr rfl) rfl, by simp [State.observe, runStream, hodd]⟩
  · obtain ⟨t, ht, hobs⟩ := (State.launch_betweenChunks (s := { State.reset with mnRom, regRom, honorD })
      rfl ⟨rfl, rfl, rfl⟩ (bytes := bytes) (by omega)).steps
    rw [chunksOf_length] at ht
    refine ⟨t, ht, ?_⟩
    obtain ⟨hmn, hrr, hh, -⟩ := State.beginRun_frame
      (({ State.reset with mnRom, regRom, honorD } : State).launch bytes).afterPins bytes.length
    rw [hobs, hmn, hrr, hh, runStream, if_neg hodd]
    rfl

/-! ### Chunking is complete -/

/-- The chunks of a stream of even length, put together, are the stream (R89). -/
theorem flatMap_chunksOf (bytes : List Byte) (heven : bytes.length % 2 = 0) :
    ((chunksOf bytes).flatMap fun c => [c.1, c.2]) = bytes := by
  induction bytes using chunksOf.induct with
  | case1 byte0 byte1 rest ih =>
    rw [List.length_cons, List.length_cons] at heven
    simp [chunksOf, ih (by omega)]
  | case2 bytes hshort =>
    rcases bytes with _ | ⟨byte0, _ | ⟨byte1, rest⟩⟩
    · rfl
    · simp at heven
    · exact absurd rfl (hshort byte0 byte1 rest)

/-- Outside `IDLE` a step without `reset` keeps the sampled length and does not go back to `IDLE` (R82). -/
theorem step_keeps_len {s t : State} (hs : s.seq ≠ .idle) (hr : s.pinsNow.reset = false) (h : step s = .next t) :
    t.seq ≠ .idle ∧ t.len = s.len := by
  rcases step_cases h with ⟨hr', -⟩ | ⟨-, hs', -⟩ | ⟨-, -, rfl⟩ | ⟨-, -, b0, b1, -, -, rfl⟩
  · simp [hr] at hr'
  · exact absurd hs' hs
  · exact ⟨hs, rfl⟩
  · refine ⟨?_, by simp⟩
    rcases s.afterPins.decodeEffect_cases (fieldExtract b0 b1) with ⟨cause, e⟩ | ⟨line, e⟩ <;> rw [e]
    · simp
    · rw [State.appendLine_seq]
      split
      · simp
      · exact hs

/-- A run that has begun keeps its sampled length while no `reset` is scheduled (R82). -/
theorem steps_keep_len {k : Nat} {s t : State} (hs : s.seq ≠ .idle) (hr : s.NoResetAhead) (h : steps k s = .next t) :
    t.len = s.len := by
  obtain ⟨-, hlen, -⟩ := steps_keep (P := fun u => u.seq ≠ .idle ∧ u.len = s.len ∧ u.NoResetAhead)
    (fun u v ⟨hu, hlen, hru⟩ huv =>
      have ⟨hv, hlen'⟩ := step_keeps_len hu hru.now huv
      ⟨hv, hlen'.trans hlen, hru.step huv⟩) k ⟨hs, rfl, hr⟩ h
  exact hlen

/-- A start leaves `IDLE` with the length it was given (R82, R83). -/
theorem State.beginRun_len (s : State) (n : Nat) : (s.beginRun n).seq ≠ .idle ∧ (s.beginRun n).len = n := by
  rcases s.beginRun_cases n with ⟨-, e⟩ | ⟨hn, e⟩ | ⟨-, -, e⟩ <;> rw [e] <;> simp [*]

/-- Once booted, a run of one step or more has the stream's length as its `L` (R82, R104). -/
theorem steps_launch_len {s t : State} {bytes : List Byte} {k : Nat} (hs : s.seq = .idle)
    (h : steps (k + 1) (s.launch bytes) = .next t) : t.len = bytes.length := by
  rw [steps_succ _ (step_launch hs bytes)] at h
  obtain ⟨hseq, hlen⟩ := (s.launch bytes).afterPins.beginRun_len bytes.length
  refine (steps_keep_len hseq ?_ h).trans hlen
  exact State.NoResetAhead.step (s := s.launch bytes) (by simp [State.NoResetAhead]) (step_launch hs bytes)

/-- A run is observed in `DONE` and in `FAULT` only (R88). -/
theorem State.ended_of_observe {s : State} {r : RunResult} (h : s.observe = some r) :
    s.seq = .done ∨ s.seq = .fault := by
  rcases hs : s.seq with _ | _ | _ | _ <;> simp [State.observe, hs] at h ⊢

/-- With a length that is even, a fault is a chunk's: its offset is the cursor (R91, R96). -/
theorem State.Inv.faultOffset_eq_cursor {s : State} (h : s.Inv) (hs : s.seq = .fault) (heven : s.len % 2 = 0) :
    s.faultOffset = s.cursor := by
  have hrec := h.recorded
  rcases hc : s.faultCause with _ | _ | _ | _ <;> simp only [State.Recorded, hs, hc] at hrec
  · exact hrec.1
  · exact hrec.1
  · omega

/-- Settles O41: the run ends by O40, and the invariant of O35 says where the cursor and the line count then stand. -/
theorem chunkingIsComplete : Obligations.ChunkingIsComplete := by
  intro bytes heven
  refine ⟨chunksOf_length bytes, flatMap_chunksOf bytes heven, ?_⟩
  obtain ⟨t, ht, hobs⟩ := blockComputesRun mnemonicTable registerTable Config.honorDDefault bytes
  have hinv : t.Inv := steps_keep stepKeepsTheInvariant _ (resetMeetsTheInvariant.2 bytes) ht
  have hlen : t.len = bytes.length := steps_launch_len rfl ((Nat.add_comm 1 _) ▸ ht)
  refine ⟨t, ht, State.ended_of_observe hobs, fun hdone => ?_, fun hfault => ?_⟩
  · obtain ⟨hc, hend⟩ := (State.positioned_done hdone).1 hinv.positioned
    omega
  · obtain ⟨hc, hlt⟩ := (State.positioned_fault hfault).1 hinv.positioned
    have hoff := hinv.faultOffset_eq_cursor hfault (by omega)
    omega

end Sys2Proof.Machine

/-! ### The first faulting chunk -/

namespace Sys2Proof.Machine

/-- A list whose first entries match those of another, one by one, under two functions is cut at the entry after them. -/
theorem exists_cut_before {α β γ : Type} {f : α → γ} {g : β → γ} {as : List α} {bs : List β} {a : α}
    (ha : as[bs.length]? = some a)
    (h : ∀ j, j < bs.length → ∃ a b, as[j]? = some a ∧ bs[j]? = some b ∧ f a = g b) :
    ∃ ahead rest, as = ahead ++ a :: rest ∧ ahead.map f = bs.map g := by
  induction bs generalizing as with
  | nil =>
    cases as with
    | nil => cases ha
    | cons a' as => exact ⟨[], as, congrArg (· :: as) (Option.some.inj ha), rfl⟩
  | cons b bs ih =>
    obtain ⟨a₀, b₀, ha₀, hb₀, hfg⟩ := h 0 (Nat.succ_pos _)
    cases as with
    | nil => cases ha
    | cons a' as =>
      obtain rfl : a' = a₀ := Option.some.inj ha₀
      obtain rfl : b = b₀ := Option.some.inj hb₀
      obtain ⟨ahead, rest, rfl, hmap⟩ := ih ha fun j hj => h (j + 1) (Nat.succ_lt_succ hj)
      exact ⟨a' :: ahead, rest, rfl, congr (congrArg List.cons hfg) hmap⟩

/-- From between two chunks, one step for each chunk that renders leads past them, with their lines
printed (R84, R86). -/
theorem State.BetweenChunks.steps_lines {s : State} {printed lines : List Text} {ahead rest : List (Byte × Byte)}
    (h : s.BetweenChunks printed (ahead ++ rest))
    (hlines : ahead.map (fun c => decode1 s.mnRom s.regRom s.honorD (fieldExtract c.1 c.2)) = lines.map .ok) :
    ∃ t, Machine.steps ahead.length s = .next t ∧ t.BetweenChunks (printed ++ lines) rest := by
  induction ahead generalizing s printed lines with
  | nil =>
    obtain rfl : lines = [] := List.map_eq_nil_iff.1 hlines.symm
    rw [List.append_nil]
    exact ⟨s, rfl, h⟩
  | cons c ahead ih =>
    cases lines with
    | nil => cases hlines
    | cons line lines =>
      rw [List.map_cons, List.map_cons] at hlines
      obtain ⟨hline, hrest⟩ := List.cons.inj hlines
      have hstep := h.step
      rw [State.decodeEffect_ok hline] at hstep
      rw [← State.appendLine_mnRom s line, ← State.appendLine_regRom s line, ← State.appendLine_honorD s line] at hrest
      obtain ⟨t, ht, hbetween⟩ := ih (h.appendLine line) hrest
      rw [List.append_assoc] at hbetween
      exact ⟨t, (steps_succ _ hstep).trans ht, hbetween⟩

/-- From before a chunk that faults, the next step enters that chunk's fault, and the block stays there (R84, R87). -/
theorem State.BetweenChunks.steps_fault {s : State} {printed : List Text} {c : Byte × Byte}
    {rest : List (Byte × Byte)} {cause : FaultCause} (h : s.BetweenChunks printed (c :: rest))
    (hfault : decode1 s.mnRom s.regRom s.honorD (fieldExtract c.1 c.2) = .error cause) (n : Nat) :
    Machine.steps (n + 1) s = .next (s.raiseFault cause s.cursor (fieldExtract c.1 c.2).opCode) := by
  have hstep := h.step
  rw [State.decodeEffect_error hfault] at hstep
  exact (steps_succ n hstep).trans (steps_quiet n (.inr rfl) h.pins)

/-- A run over chunks that render and then one that faults ends in the fault of that one, entered from the place before
it with the lines of the others printed (R96). -/
theorem State.BetweenChunks.steps_first_fault {s : State} {printed lines : List Text} {ahead rest : List (Byte × Byte)}
    {c : Byte × Byte} {cause : FaultCause} (h : s.BetweenChunks printed (ahead ++ c :: rest))
    (hlines : ahead.map (fun c => decode1 s.mnRom s.regRom s.honorD (fieldExtract c.1 c.2)) = lines.map .ok)
    (hfault : decode1 s.mnRom s.regRom s.honorD (fieldExtract c.1 c.2) = .error cause) :
    ∃ u : State, u.BetweenChunks (printed ++ lines) (c :: rest) ∧ Machine.steps (ahead ++ c :: rest).length s =
      .next (u.raiseFault cause u.cursor (fieldExtract c.1 c.2).opCode) := by
  obtain ⟨u, hu, hbefore⟩ := h.steps_lines hlines
  obtain ⟨hmn, hrr, hh, -⟩ := romsAndInputNeverChange _ _ _ hu
  rw [← hmn, ← hrr, ← hh] at hfault
  refine ⟨u, hbefore, ?_⟩
  rw [List.length_append, steps_add _ _ hu, List.length_cons, hbefore.steps_fault hfault]

/-- Settles O42: the stream is cut before chunk `k`; `steps_first_fault` runs it from the place the start
step leads to. -/
theorem firstFaultingChunkIsReported : Obligations.FirstFaultingChunkIsReported := by
  rintro bytes _ byte0 byte1 cause lines heven hchunk hfault rfl hlines
  obtain ⟨ahead, rest, hcut, hrender⟩ := exists_cut_before hchunk hlines
  have hlaunch := step_launch (s := State.reset) rfl bytes
  have hstart := State.launch_betweenChunks (s := State.reset) rfl ⟨rfl, rfl, rfl⟩ heven
  obtain ⟨hmn, hrr, hh, -⟩ := step_config hlaunch
  rw [hcut] at hstart
  obtain ⟨u, hbefore, hend⟩ := hstart.steps_first_fault (cause := cause)
    (by rw [hmn, hrr, hh]; exact hrender) (by rw [hmn, hrr, hh]; exact hfault)
  rw [← hcut, chunksOf_length] at hend
  rw [Nat.add_comm, steps_succ _ hlaunch]
  exact ⟨_, hend, rfl, rfl, hbefore.cursor, rfl, hbefore.cursor, hbefore.lines, hbefore.text, rfl⟩

end Sys2Proof.Machine

/-! ### Reset, and waiting in `IDLE` -/

namespace Sys2Proof.Machine

/-- Settles O23: the next state is the one `applyReset` writes, and a block in `IDLE` delivers nothing. -/
theorem resetActsInEveryState : Obligations.ResetActsInEveryState := by
  intro s p rest hp hr
  have hstep : step s = .next s.afterPins.applyReset := step_reset (by rw [State.pinsNow_cons hp, hr])
  have hnone : s.afterPins.applyReset.result = none := State.result_eq_none (by simp)
  exact ⟨_, hstep, rfl, rfl, rfl, rfl, rfl, rfl, rfl, rfl, rfl, hnone⟩

/-- Settles O26: a waiting `IDLE` is one of the states in which the sequencer has no step. -/
theorem idleWaitsForStart : Obligations.IdleWaitsForStart := fun _ hs hr ht =>
  step_quiet hr (.inr (.inr ⟨hs, ht⟩))

end Sys2Proof.Machine
